-- ==== Sys2Proof/Word.lean ====
section
/-! DEFINITION. The words of the block: a wire byte, the 64-bit value port, and the two operand widths
(00_scope.md R1, R2; 20_memory.md R26; 92_eei_decisions.md D4). -/

namespace Sys2Proof

/-- The unit of every stream transfer: one 8-bit byte (R26). -/
abbrev Byte := BitVec 8

/-- The host bus and value port, and the datapath registers that are realised on 64 bits (D4, R14, R18). -/
abbrev Word := BitVec 64

/-- The two operand widths; no other width exists (R1). It is the one-bit register W of a unit (R14, R18). -/
inductive Width where
  /-- W = 32, VarInt. -/
  | w32
  /-- W = 64, VarLong. -/
  | w64
deriving DecidableEq, Repr

/-- The number of bits W (R1). -/
abbrev Width.bits : Width → Nat
  | .w32 => 32
  | .w64 => 64

/-- MAX_GROUPS(W), the most groups a group sequence has (R2). -/
def Width.maxGroups : Width → Nat
  | .w32 => 5
  | .w64 => 10

end Sys2Proof
end

