-- ==== Sys2Proof/Config.lean ====
section
/-! DEFINITION. What an implementation fixes, and the free values: constants without a body, of which no proof can
see the value (00_scope.md R3; 10_state.md R23; 70_reset_and_hazards.md R81). -/

namespace Sys2Proof

/-- NUM_INSTANCES of the machine that `State.reset` describes: "the smallest model has 1" (R3).
DESIGN CHOICE, log entry 2: the statements hold for states with any number of instances. -/
def Config.numInstances : Nat := 1

/-! The unspecified registers after a reset (R23, R81: "unspecified hold an arbitrary value"). Each is applied to the
number of the reset (State.draws) and the index of the instance, so that no two need agree. Log entry 5. -/

/-- D.STATUS after reset. -/
opaque Config.freeDecStatus : Nat → Nat → BitVec 2
/-- D.W after reset, the bit that is read as a width. -/
opaque Config.freeDecW : Nat → Nat → BitVec 1
/-- D.ACC after reset. -/
opaque Config.freeDecAcc : Nat → Nat → Word
/-- D.OFFSET after reset. -/
opaque Config.freeDecOffset : Nat → Nat → BitVec 7
/-- E.STATUS after reset. -/
opaque Config.freeEncStatus : Nat → Nat → BitVec 2
/-- E.W after reset, the bit that is read as a width. -/
opaque Config.freeEncW : Nat → Nat → BitVec 1
/-- E.REM after reset. -/
opaque Config.freeEncRem : Nat → Nat → Word

end Sys2Proof
end

