-- ==== Sys2Proof/Syntax.lean ====
section
/-! DEFINITION. The whole command set: one constructor per row of spec/opcode_table.json (30_encoding.md R47, R49). -/

namespace Sys2Proof

/-- A command, the pair (OP, VALUE) of R47: the constructor is OP, the argument is what the 64-bit value port
carries with it. The argument is kept for the decode commands too, whose meaning ignores it (R49). -/
inductive Instr where
  /-- ENC32, `encode_varint` (R61). -/
  | enc32 (value : Word)
  /-- ENC64, `encode_varlong` (R62). -/
  | enc64 (value : Word)
  /-- DEC32, `decode_varint` (R53). -/
  | dec32 (value : Word)
  /-- DEC64, `decode_varlong` (R54). -/
  | dec64 (value : Word)
deriving DecidableEq, Repr

end Sys2Proof
end

