-- ==== Sys2Proof/Machine/State.lean ====
section
/-! DEFINITION. The state of the machine as plain data: the registers of both units of every instance
(10_state.md R8-R24), the byte streams at their ports (20_memory.md R25), the commands the host holds at a port
(70_reset_and_hazards.md R85), and what the outside world does next; the reasons a step stops; the state after reset. -/

namespace Sys2Proof.Machine

/-- The 2-bit field STATE of a unit (R11): IDLE = 0, BUSY = 1, COMPLETE = 2; 3 is never produced. -/
inductive UnitState where
  | idle
  | busy
  | complete
deriving DecidableEq, Repr

/-- The 2-bit field STATUS of a unit (R12): OK = 0, READ_FAILURE = 1, OVERLONG = 2, WRITE_FAILURE = 3. -/
inductive Status where
  | ok
  | readFailure
  | overlong
  | writeFailure
deriving DecidableEq, Repr

/-- The registers of a decoder unit D. -/
structure Decoder where
  /-- D.STATE (R11). -/
  state : UnitState
  /-- D.STATUS (R12). -/
  status : Status
  /-- D.RESULT (R13): `none` is the spec's own "not valid". -/
  result : Option Word
  /-- D.W, the width of the operation (R14). -/
  w : Width
  /-- D.ACC, of which bits [W-1:0] are used (R14). -/
  acc : Word
  /-- D.OFFSET (R14). -/
  offset : BitVec 7
  /-- D.PENDING: a read request is outstanding (R20). -/
  pending : Bool
deriving DecidableEq, Repr

/-- The registers of an encoder unit E. -/
structure Encoder where
  /-- E.STATE (R11). -/
  state : UnitState
  /-- E.STATUS (R12). -/
  status : Status
  /-- E.W, the width of the operation (R18). -/
  w : Width
  /-- E.REM, "remaining", of which bits [W-1:0] are used (R18). -/
  rem : Word
  /-- E.PENDING: the byte offered to the sink and not yet answered (R20). -/
  pending : Option Byte
deriving DecidableEq, Repr

/-- A command that the host presents to a busy unit and goes on holding: OP[0] and VALUE (R22, R85; OP[1] is the unit). -/
structure Held where
  w : Width
  value : Word
deriving DecidableEq, Repr

/-- One instance of the block: a decoder, an encoder, their stream ports and the command port (R3, R38, R79; D2). -/
structure Instance where
  dec : Decoder
  enc : Encoder
  /-- The byte source at the decoder's port, its head first (R25, R27). -/
  src : List Byte
  /-- The byte sink at the encoder's port, the byte appended first at the front (R25, R28). -/
  sink : List Byte
  /-- The command the host holds for the decoder, until it is accepted or withdrawn (R85). -/
  heldDec : Option Held
  /-- The command the host holds for the encoder, until it is accepted or withdrawn (R85). -/
  heldEnc : Option Held
deriving DecidableEq, Repr

/-- The two units of an instance. -/
inductive UnitName where
  | decoder
  | encoder
deriving DecidableEq, Repr

/-- What the byte source does with the outstanding read request: hand over its next byte, or fail (R27). -/
inductive SrcReply where
  | deliver
  | fail
deriving DecidableEq, Repr

/-- The answer a decode step gets from `SrcRead()` (R27). -/
inductive SrcAnswer where
  | byte (b : Byte)
  | fail
deriving DecidableEq, Repr

/-- The answer an encode step gets from `SinkWrite(b)` (R28). -/
inductive SinkAnswer where
  | ok
  | fail
deriving DecidableEq, Repr

/-- The registers a host can read (R21; 10_state.md section 2). -/
inductive HostReg where
  | decState
  | decStatus
  | decResult
  | encState
  | encStatus
deriving DecidableEq, Repr

/-- One value the host has read. -/
structure HostRead where
  port : Nat
  reg : HostReg
  value : Word
deriving DecidableEq, Repr

/-- For one instance, whether a request outstanding at an aborting reset took effect in the stream (R82). -/
structure AbortChoice where
  srcTook : Bool
  sinkTook : Bool
deriving DecidableEq, Repr

/-- What the outside world does in one step; `k` is the index of an instance. -/
inductive Move where
  /-- Nothing comes from outside: the units that wait go on waiting (R30, R80). -/
  | wait
  /-- The host presents the command (OP, VALUE) at the port of instance `k` (R47, R22). -/
  | command (k : Nat) (op : BitVec 2) (value : Word)
  /-- The host withdraws the command it holds for a unit of instance `k` (R85). -/
  | withdraw (k : Nat) (u : UnitName)
  /-- The byte source of instance `k` answers (R27, R30). -/
  | srcAnswer (k : Nat) (r : SrcReply)
  /-- The byte sink of instance `k` answers (R28, R30). -/
  | sinkAnswer (k : Nat) (a : SinkAnswer)
  /-- Bytes arrive at the tail of the source of instance `k` (R25: a sequence with no size limit known to the block). -/
  | feedSrc (k : Nat) (bytes : List Byte)
  /-- Another agent changes what stands at the decoder's source port, or connects another stream (R38, R84). -/
  | connectSrc (k : Nat) (bytes : List Byte)
  /-- Another agent changes what stands at the encoder's sink port, or connects another stream (R38, R84). -/
  | connectSink (k : Nat) (bytes : List Byte)
  /-- The host reads a register of instance `k` (R21). -/
  | read (k : Nat) (r : HostReg)
  /-- The reset signal (R81, R82); the choices are those of the instances in order, `⟨false, false⟩` past the end. -/
  | reset (choices : List AbortChoice)
deriving DecidableEq, Repr

/-- The state of the machine. -/
structure State where
  /-- The instances, NUM_INSTANCES of them (R3, R79). -/
  instances : List Instance
  /-- The model's own: the instance at whose port a command is being presented (log entry 19). -/
  sel : Nat
  /-- The model's own: what the outside world does in the coming steps, oldest first (log entry 6). -/
  env : List Move
  /-- The model's own: the values the host has read, oldest first (log entry 18). -/
  reads : List HostRead
  /-- The model's own: how many resets have drawn free values (log entry 5). -/
  draws : Nat
deriving DecidableEq, Repr

/-- Why the machine stops with a fault. -/
inductive Fault where
  /-- A host read of D.RESULT when it is not valid (R13, R24). Raised by the move `read`. Safe: hardware drives some bits. -/
  | resultNotValid
  /-- A host read of STATUS while STATE is not COMPLETE (R24). Raised by the move `read`. Safe: hardware drives some bits. -/
  | statusNotValid
  /-- A move names an instance the machine does not have (R79). Raised by every move with an index. Safe: no such port exists. -/
  | noSuchInstance
deriving DecidableEq, Repr

/-- Why the machine refuses. -/
inductive Refusal where
  /-- An instruction that has no meaning yet; raised by `exec` only, safe. No arm answers it in this model. -/
  | notModelled (mnemonic : String)
  /-- Another agent touches a unit's stream during its operation (R38, R88; 93 I10: `refuse`). Raised by the moves
  `connectSrc` and `connectSink`. UNSAFE in the sense of 93 section 2: the runs with interference are missing. -/
  | streamInterference
deriving DecidableEq, Repr

/-- A decoder right after power-on reset: IDLE, no request, RESULT not valid (R23). STATUS, W, ACC and OFFSET are
unspecified there: their values here are a DESIGN CHOICE, log entry 3. -/
def Decoder.reset : Decoder :=
  { state := .idle, status := .ok, result := none, w := .w32, acc := 0#64, offset := 0#7, pending := false }

/-- An encoder right after power-on reset: IDLE, no request (R23). STATUS, W and REM are unspecified there: their
values here are a DESIGN CHOICE, log entry 3. -/
def Encoder.reset : Encoder :=
  { state := .idle, status := .ok, w := .w32, rem := 0#64, pending := none }

/-- An instance right after power-on reset. That its streams hold nothing is a DESIGN CHOICE, log entry 4: reset does
not touch them (R81). -/
def Instance.reset : Instance :=
  { dec := Decoder.reset, enc := Encoder.reset, src := [], sink := [], heldDec := none, heldEnc := none }

/-- The machine with `n` instances right after reset: every unit of every instance IDLE (R79, R81). -/
def State.resetWith (n : Nat) : State :=
  { instances := List.replicate n Instance.reset, sel := 0, env := [], reads := [], draws := 0 }

/-- The machine right after reset. -/
def State.reset : State :=
  State.resetWith Config.numInstances

end Sys2Proof.Machine
end

