-- ==== Sys2Proof/WellFormed.lean ====
section
/-! DEFINITION. What is well formed: every command (30_encoding.md R49), and a move of the outside world that names an
instance the machine has (60_exceptions.md R79). The checks of an assembler line (R50) stand in Machine/Assembler.lean. -/

namespace Sys2Proof

/-- "All four OP values are commands", "Every VALUE is legal for every command" (R49): there is nothing to check. -/
def Instr.wellFormed : Instr → Bool
  | .enc32 _ => true
  | .enc64 _ => true
  | .dec32 _ => true
  | .dec64 _ => true

/-- The instance a move names, if it names one. -/
def Machine.Move.port : Machine.Move → Option Nat
  | .wait => none
  | .command k _ _ => some k
  | .withdraw k _ => some k
  | .srcAnswer k _ => some k
  | .sinkAnswer k _ => some k
  | .feedSrc k _ => some k
  | .connectSrc k _ => some k
  | .connectSink k _ => some k
  | .read k _ => some k
  | .reset _ => none

/-- A move names no instance, or one of the `n` the machine has. -/
def Machine.Move.wellFormed (n : Nat) (m : Machine.Move) : Bool :=
  match m.port with
  | none => true
  | some k => decide (k < n)

end Sys2Proof
end

