-- ==== Sys2Proof/Decode.lean ====
section
/-! DEFINITION. The command decoder and, after it, the encoder (30_encoding.md R47, R48, R49; opcode_table.json).
The command word as ONE number is the 66 bits with VALUE above OP, bit 0 the least significant bit of OP:
DESIGN CHOICE, log entry 1 (on the hardware OP and VALUE are wires of one port, R47). -/

namespace Sys2Proof

/-- OP[0], the field WIDE (R47): 0 is W = 32, 1 is W = 64. -/
def opWidth (op : BitVec 2) : Width :=
  if op.getLsbD 0 then .w64 else .w32

/-- OP[1], the field DIR (R47): true is decode (the decoder unit), false is encode (the encoder unit). -/
def opIsDecode (op : BitVec 2) : Bool :=
  op.getLsbD 1

/-- The command on the wires of a port (R47). Total: no OP and no VALUE is reserved or illegal (R49). -/
def decodeCommand (op : BitVec 2) (value : Word) : Instr :=
  match opIsDecode op, opWidth op with
  | false, .w32 => .enc32 value
  | false, .w64 => .enc64 value
  | true, .w32 => .dec32 value
  | true, .w64 => .dec64 value

/-- Why a number is no command word. -/
inductive DecodeError where
  /-- A bit at position 66 or above is set: "A command has no length beyond these two fields" (R47). -/
  | bitsBeyondCommand
deriving DecidableEq, Repr

/-- How many bits a command has: OP 2, VALUE 64 (R47). -/
def commandBits : Nat := 66

/-- The OP field of a command word. -/
def wordOp (w : Nat) : BitVec 2 := BitVec.ofNat 2 w

/-- The VALUE field of a command word. -/
def wordValue (w : Nat) : Word := BitVec.ofNat 64 (w / 4)

/-- The command in a number; refused by name only where a bit lies beyond the two fields. -/
def decodeWord (w : Nat) : Except DecodeError Instr :=
  if w < 2 ^ commandBits then .ok (decodeCommand (wordOp w) (wordValue w)) else .error .bitsBeyondCommand

/-- What the decoder reads from an instruction whose `nbits` bits are `w`, numbered as opcode_table.json numbers
them (OP is bits 1:0); every bit above `nbits` is 0. -/
def decodeTableWord (nbits w : Nat) : Option Instr :=
  match decodeWord (w % 2 ^ nbits) with
  | .ok i => some i
  | .error _ => none

/-! The encoder. -/

/-- The OP code of a command (R47's second table). -/
def encodeOp : Instr → BitVec 2
  | .enc32 _ => 0b00#2
  | .enc64 _ => 0b01#2
  | .dec32 _ => 0b10#2
  | .dec64 _ => 0b11#2

/-- What the value port carries with a command (R48). -/
def encodeValue : Instr → Word
  | .enc32 value => value
  | .enc64 value => value
  | .dec32 value => value
  | .dec64 value => value

/-- The command word of a command. -/
def encodeWord (i : Instr) : Nat :=
  (encodeValue i).toNat * 4 + (encodeOp i).toNat

end Sys2Proof
end

