-- ==== Sys2Proof/Machine/Operands.lean ====
section
/-! DEFINITION. Operand forms: the arithmetic on W-bit patterns (00_scope.md R4-R7), the fields of the value port
(30_encoding.md R48), the data field of a wire byte (R39), and the numeric codes of the registers a host reads. -/

namespace Sys2Proof.Machine

/-- `lsr_W(v, n)`: the logical right shift inside W bits, vacated bits 0 (R5, R68). -/
def lsr {W : Nat} (v : BitVec W) (n : Nat) : BitVec W := v >>> n

/-- `shl_W(v, n)`: the left shift inside W bits; bits moved to W or above are discarded (R6). -/
def shl {W : Nat} (v : BitVec W) (n : Nat) : BitVec W := v <<< n

/-- `toSigned_W(u)`: the two's-complement reading (R4). -/
def toSigned {W : Nat} (u : BitVec W) : Int := u.toInt

/-- `toUnsigned_W(s)`: the W-bit pattern of a signed number (R4). -/
def toUnsigned (W : Nat) (s : Int) : BitVec W := BitVec.ofInt W s

/-- `zext_N(v)`, also the truncation to the low N bits of a wider register (00_scope.md section 6). -/
def zext {M : Nat} (N : Nat) (v : BitVec M) : BitVec N := v.setWidth N

/-- `sext_N(v)` (00_scope.md section 6). -/
def sext {M : Nat} (N : Nat) (v : BitVec M) : BitVec N := v.signExtend N

/-- DATA, bits [6:0] of a wire byte (R39). -/
def dataBits (b : Byte) : BitVec 7 := b.extractLsb' 0 7

/-- A final wire byte: C = 0 above 7 data bits (R39). -/
def finalByte (d : BitVec 7) : Byte := zext 8 d

/-- A wire byte with more groups to follow: `0x80 | data` (R39, R60 step 2). -/
def moreByte (d : BitVec 7) : Byte := 0x80#8 ||| zext 8 d

/-- The operand an encode command reads: VALUE[W-1:0], zero-extended to the register (R48, R59). -/
def operand (w : Width) (value : Word) : Word := zext 64 (zext w.bits value)

/-- The code of STATE (R11). -/
def UnitState.code : UnitState → BitVec 2
  | .idle => 0#2
  | .busy => 1#2
  | .complete => 2#2

/-- The code of STATUS (R12). -/
def Status.code : Status → BitVec 2
  | .ok => 0#2
  | .readFailure => 1#2
  | .overlong => 2#2
  | .writeFailure => 3#2

/-- The STATUS a 2-bit code stands for: all four values are legal (R12). -/
def Status.ofCode (c : BitVec 2) : Status :=
  if c = 0#2 then .ok else if c = 1#2 then .readFailure else if c = 2#2 then .overlong else .writeFailure

/-- The width a W bit stands for (R14, R18, R47). -/
def widthOfBit (b : BitVec 1) : Width :=
  if b.getLsbD 0 then .w64 else .w32

end Sys2Proof.Machine
end

