-- ==== Sys2Proof/Machine/Flags.lean ====
section
/-! DEFINITION. The conditions the steps test. The block has no flags or condition codes (10_state.md R10): these are
the continuation bit of a wire byte, the tests of R52 and R60, the ready signals (R22) and when a register is valid
to a host (R13, R24, R87). -/

namespace Sys2Proof.Machine

/-- The continuation bit C, bit 7 of a wire byte (R39): more groups follow. -/
def continues (b : Byte) : Bool := b.getLsbD 7

/-- "remaining fits in 7 bits": `(r & ~zext_W(0x7F)) = 0` (R60 step 1). -/
def fitsSeven {W : Nat} (r : BitVec W) : Bool := r &&& ~~~ (zext W 0x7F#8) == 0

/-- "offset has reached or exceeded the target width" (R52 step 5). -/
def offsetFull (w : Width) (offset : BitVec 7) : Bool := decide (w.bits ≤ offset.toNat)

/-- A unit accepts a command exactly when it is not BUSY (R22). -/
def UnitState.ready (st : UnitState) : Bool := decide (st ≠ .busy)

/-- D.RESULT is valid: COMPLETE with OK (R13, R87). -/
def Decoder.resultValid (d : Decoder) : Bool := decide (d.state = .complete ∧ d.status = .ok)

end Sys2Proof.Machine
end

