-- ==== Sys2Proof/Machine/Wire.lean ====
section
/-! DEFINITION. The wire format as functions of byte sequences, apart from any unit (30_encoding.md R40-R46,
40_decoder.md R58, 41_encoder.md R60): what a sequence spells, what the encoder writes, and its length. -/

namespace Sys2Proof.Machine

/-- The pattern a group sequence spells when its first group has index `i` (R41): the OR of the data fields, group `j`
at bit 7j, bits at W or above discarded. -/
def assembleFrom (W i : Nat) : List Byte → BitVec W
  | [] => 0
  | g :: gs => shl (zext W (dataBits g)) (7 * i) ||| assembleFrom W (i + 1) gs

/-- The unsigned W-bit pattern of a group sequence (R41). -/
def assemble (W : Nat) (gs : List Byte) : BitVec W := assembleFrom W 0 gs

/-- DECODE_W, the signed value of a group sequence (R58). -/
def decodeValue (W : Nat) (gs : List Byte) : Int := toSigned (assemble W gs)

/-- What the decoder accepts as a value of width `w` (R45): at most MAX_GROUPS groups, C = 1 on all but the last. -/
def accepted (w : Width) (gs : List Byte) : Bool :=
  match gs.getLast? with
  | none => false
  | some g => decide (gs.length ≤ w.maxGroups) && !continues g && gs.dropLast.all continues

/-- The groups the encode steps write for the pattern `u`, at most `fuel` of them (R60). -/
def groupsUpTo {W : Nat} : Nat → BitVec W → List Byte
  | 0, _ => []
  | fuel + 1, u =>
    if fitsSeven u then [zext 8 u]
    else moreByte (zext 7 u) :: groupsUpTo fuel (lsr u 7)

/-- ENCODE_W, the group sequence of the pattern `u`: never more than MAX_GROUPS(W) groups (R63). -/
def encodeGroups (w : Width) (u : BitVec w.bits) : List Byte := groupsUpTo w.maxGroups u

/-- bitlen(u): the index of the highest set bit plus 1, and 0 for 0 (R44). -/
def bitLen {W : Nat} (u : BitVec W) : Nat := if u = 0 then 0 else Nat.log2 u.toNat + 1

/-- L_W(u) = max(1, ceil(bitlen(u) / 7)) (R44). -/
def groupLength {W : Nat} (u : BitVec W) : Nat := max 1 ((bitLen u + 6) / 7)

end Sys2Proof.Machine
end

