-- ==== Sys2Proof/Machine/Ops.lean ====
section
/-! DEFINITION. The named operations on a unit, an instance and the machine: how an operation ends (10_state.md R15, the
only error entry, 60_exceptions.md R71), the stream primitives (20_memory.md R27, R28), presenting a command (R22, R85),
waiting (R30), a host's read (R21, R24) and the reset signal (70_reset_and_hazards.md R81, R82). -/

namespace Sys2Proof.Machine

/-! ### Ending an operation -/

/-- `complete(D, s)` (R15): COMPLETE and STATUS in one step; with an error RESULT becomes not valid. -/
def Decoder.complete (d : Decoder) (st : Status) : Decoder :=
  { d with state := .complete, status := st, result := if st = .ok then d.result else none }

/-- `complete(E, s)` (R15). -/
def Encoder.complete (e : Encoder) (st : Status) : Encoder :=
  { e with state := .complete, status := st }

/-! ### The start steps -/

/-- The start step of a decode command of width `w` (R51). It ignores VALUE. -/
def Decoder.start (d : Decoder) (w : Width) : Decoder :=
  { d with w := w, acc := 0#64, offset := 0#7, result := none, state := .busy }

/-- The start step of an encode command of width `w` (R59): VALUE is sampled here, once. -/
def Encoder.start (e : Encoder) (w : Width) (value : Word) : Encoder :=
  { e with w := w, rem := operand w value, state := .busy }

/-! ### The stream primitives -/

/-- `SrcRead()` (R27): the answer, and the source after it. A source with no byte left cannot supply one (log entry 9);
a `Fail` consumes nothing (R29). -/
def srcRead (r : SrcReply) (src : List Byte) : SrcAnswer × List Byte :=
  match r, src with
  | .deliver, b :: rest => (.byte b, rest)
  | .deliver, [] => (.fail, [])
  | .fail, src => (.fail, src)

/-- `SinkWrite(b)` (R28): the sink after the answer; a `Fail` appends nothing (R29). -/
def sinkWrite (a : SinkAnswer) (b : Byte) (sink : List Byte) : List Byte :=
  match a with
  | .ok => sink ++ [b]
  | .fail => sink

/-- E.REM[W-1:0] of the operation in progress (R60). -/
def Encoder.remaining (e : Encoder) : BitVec e.w.bits := zext e.w.bits e.rem

/-- The byte an encode step forms from E.REM (R60 steps 1 and 2). -/
def Encoder.formed (e : Encoder) : Byte :=
  if fitsSeven e.remaining then zext 8 e.remaining else moreByte (zext 7 e.remaining)

/-- The byte on offer to the sink: the outstanding one, or the one the step forms now (R20, R60). -/
def Encoder.offered (e : Encoder) : Byte := e.pending.getD e.formed

/-! ### Waiting for a stream -/

/-- A busy decoder has its read request outstanding while the source does not answer (R20, R30). -/
def Decoder.wait (d : Decoder) : Decoder :=
  if d.state = .busy then { d with pending := true } else d

/-- A busy encoder has its byte on offer while the sink does not answer (R20, R30). -/
def Encoder.wait (e : Encoder) : Encoder :=
  if e.state = .busy then { e with pending := some e.offered } else e

/-! ### Presenting a command -/

/-- The host presents a decode command (R22): the start step where the decoder is ready; where it is BUSY the command
stays with the host and the block does not change. -/
def Instance.presentDecode (x : Instance) (w : Width) (value : Word) : Instance :=
  if x.dec.state.ready then { x with dec := x.dec.start w, heldDec := none }
  else { x with heldDec := some { w := w, value := value } }

/-- The host presents an encode command (R22). -/
def Instance.presentEncode (x : Instance) (w : Width) (value : Word) : Instance :=
  if x.enc.state.ready then { x with enc := x.enc.start w value, heldEnc := none }
  else { x with heldEnc := some { w := w, value := value } }

/-- The host withdraws the command it holds (R85). -/
def Instance.withdraw (x : Instance) : UnitName → Instance
  | .decoder => { x with heldDec := none }
  | .encoder => { x with heldEnc := none }

/-- The decoder while nothing comes from outside: a ready decoder accepts the command the host goes on presenting (R22,
R85; log entry 12), a busy one waits for its source. -/
def Instance.waitDecoder (x : Instance) : Instance :=
  match x.dec.state.ready, x.heldDec with
  | true, some c => x.presentDecode c.w c.value
  | _, _ => { x with dec := x.dec.wait }

/-- The encoder while nothing comes from outside. -/
def Instance.waitEncoder (x : Instance) : Instance :=
  match x.enc.state.ready, x.heldEnc with
  | true, some c => x.presentEncode c.w c.value
  | _, _ => { x with enc := x.enc.wait }

/-- Both units while nothing comes from outside; neither reads what the other writes (R37). -/
def Instance.wait (x : Instance) : Instance := x.waitDecoder.waitEncoder

/-! ### Reset -/

/-- The reset of a decoder (R23, R81): IDLE, no request, RESULT not valid; the rest unspecified, so free values (log entry 5). -/
def Decoder.afterReset (draw k : Nat) : Decoder :=
  { state := .idle
    status := Status.ofCode (Config.freeDecStatus draw k)
    result := none
    w := widthOfBit (Config.freeDecW draw k)
    acc := Config.freeDecAcc draw k
    offset := Config.freeDecOffset draw k
    pending := false }

/-- The reset of an encoder (R23, R81). -/
def Encoder.afterReset (draw k : Nat) : Encoder :=
  { state := .idle
    status := Status.ofCode (Config.freeEncStatus draw k)
    w := widthOfBit (Config.freeEncW draw k)
    rem := Config.freeEncRem draw k
    pending := none }

/-- The reset of instance `k` (R81, R82): the streams stay, but a request outstanding at the reset may or may not have
taken effect in the environment, as `c` says. What the host presents is the host's and stays (log entry 15). -/
def Instance.afterReset (x : Instance) (c : AbortChoice) (draw k : Nat) : Instance :=
  { x with
    dec := Decoder.afterReset draw k
    enc := Encoder.afterReset draw k
    src := if x.dec.pending && c.srcTook then (srcRead .deliver x.src).2 else x.src
    sink := match x.enc.pending with
      | some b => if c.sinkTook then sinkWrite .ok b x.sink else x.sink
      | none => x.sink }

/-- The reset of all instances together, from instance `k` on (R79). -/
def resetAll (draw : Nat) : Nat → List AbortChoice → List Instance → List Instance
  | _, _, [] => []
  | k, cs, x :: xs =>
    x.afterReset (cs.headD { srcTook := false, sinkTook := false }) draw k :: resetAll draw (k + 1) cs.tail xs

/-- The reset signal (R81, R82), one step (log entry 15). -/
def State.resetSignal (s : State) (choices : List AbortChoice) : State :=
  { s with instances := resetAll s.draws 0 choices s.instances, draws := s.draws + 1 }

/-! ### The machine -/

/-- Nothing comes from outside: every unit of every instance does what it can alone (R30, R80). -/
def State.wait (s : State) : State :=
  { s with instances := s.instances.map Instance.wait }

/-- Instance `k` changes by `f`; a fault where the machine has no instance `k` (log entry 17). -/
def State.update (s : State) (k : Nat) (f : Instance → Instance) : Host.Outcome State Fault Refusal :=
  match s.instances[k]? with
  | some x => .next { s with instances := s.instances.set k (f x) }
  | none => .fault .noSuchInstance

/-- A command presented at the selected port (R47: the command carries no index, the port has one; log entry 19). -/
def State.present (s : State) (f : Instance → Instance) : Host.Outcome State Fault Refusal :=
  s.update s.sel f

/-- What a host read of a register gives: its value on the 64-bit bus, or a fault where it is not valid (R11-R13, R24). -/
def Instance.hostRead (x : Instance) : HostReg → Except Fault Word
  | .decState => .ok (zext 64 x.dec.state.code)
  | .decStatus => if x.dec.state = .complete then .ok (zext 64 x.dec.status.code) else .error .statusNotValid
  | .decResult =>
    match x.dec.resultValid, x.dec.result with
    | true, some v => .ok v
    | _, _ => .error .resultNotValid
  | .encState => .ok (zext 64 x.enc.state.code)
  | .encStatus => if x.enc.state = .complete then .ok (zext 64 x.enc.status.code) else .error .statusNotValid

/-- The host reads a register of instance `k` (R21); what it gets is kept in `reads`. -/
def State.hostRead (s : State) (k : Nat) (r : HostReg) : Host.Outcome State Fault Refusal :=
  match s.instances[k]? with
  | none => .fault .noSuchInstance
  | some x =>
    match x.hostRead r with
    | .ok v => .next { s with reads := s.reads ++ [{ port := k, reg := r, value := v }] }
    | .error e => .fault e

/-- Another agent puts a stream at a port of instance `k`: between operations anything (20_memory.md section 5); during
the unit's operation there is no such run (R38, R88, I10; log entry 10). -/
def State.connect (s : State) (k : Nat) (unitState : Instance → UnitState) (f : Instance → Instance) :
    Host.Outcome State Fault Refusal :=
  match s.instances[k]? with
  | none => .fault .noSuchInstance
  | some x => if (unitState x).ready then s.update k f else .refused .streamInterference

end Sys2Proof.Machine
end

