-- ==== Sys2Proof/Machine/Decoder.lean ====
section
/-! DEFINITION. The decoder unit: the decode step (40_decoder.md R52) and the meanings of DEC32 and DEC64 (R53, R54),
which are its start step (R51); the steps that follow are the decode steps, one per byte. -/

namespace Sys2Proof.Machine

/-- `D.ACC[W-1:0] | shl_W(zext_W(data), D.OFFSET)` (R52 step 2). -/
def Decoder.accumulate (d : Decoder) (b : Byte) : BitVec d.w.bits :=
  zext d.w.bits d.acc ||| shl (zext d.w.bits (dataBits b)) d.offset.toNat

/-- The decode step with a byte consumed (R52 steps 2 to 6), the checks in the order of R72. -/
def Decoder.takeByte (d : Decoder) (b : Byte) : Decoder :=
  let acc := d.accumulate b
  let d' := { d with acc := zext 64 acc, offset := d.offset + 7#7, pending := false }
  if continues b = false then { d' with result := some (sext 64 acc) }.complete .ok
  else if offsetFull d'.w d'.offset then d'.complete .overlong
  else d'

/-- The decode step (R52) once the source has answered. -/
def Decoder.take (d : Decoder) : SrcAnswer → Decoder
  | .fail => { d with pending := false }.complete .readFailure
  | .byte b => d.takeByte b

/-- The byte source answers: a busy decoder takes its decode step, a decoder with no request is not concerned (R52, R35;
log entry 8). -/
def Instance.srcAnswer (x : Instance) (r : SrcReply) : Instance :=
  if x.dec.state = .busy then
    { x with dec := x.dec.take (srcRead r x.src).1, src := (srcRead r x.src).2 }
  else x

/-- DEC32 (R53): the command is presented to the decoder with W = 32. -/
def execDec32 (value : Word) (s : State) : Host.Outcome State Fault Refusal :=
  s.present (fun x => x.presentDecode .w32 value)

/-- DEC64 (R54): the command is presented to the decoder with W = 64. -/
def execDec64 (value : Word) (s : State) : Host.Outcome State Fault Refusal :=
  s.present (fun x => x.presentDecode .w64 value)

end Sys2Proof.Machine
end

