-- ==== Sys2Proof/Machine/Encoder.lean ====
section
/-! DEFINITION. The encoder unit: the encode step (41_encoder.md R60) and the meanings of ENC32 and ENC64 (R61, R62),
which are its start step (R59); the steps that follow are the encode steps, one per byte. -/

namespace Sys2Proof.Machine

/-- The encode step (R60) once the sink has answered. -/
def Encoder.take (e : Encoder) : SinkAnswer → Encoder
  | .fail => { e with pending := none }.complete .writeFailure
  | .ok =>
    if fitsSeven e.remaining then { e with pending := none }.complete .ok
    else { e with rem := zext 64 (lsr e.remaining 7), pending := none }

/-- The byte sink answers: a busy encoder takes its encode step, an encoder with no byte on offer is not concerned (R60,
R35; log entry 8). -/
def Instance.sinkAnswer (x : Instance) (a : SinkAnswer) : Instance :=
  if x.enc.state = .busy then
    { x with enc := x.enc.take a, sink := sinkWrite a x.enc.offered x.sink }
  else x

/-- ENC32 (R61): the command is presented to the encoder with W = 32. -/
def execEnc32 (value : Word) (s : State) : Host.Outcome State Fault Refusal :=
  s.present (fun x => x.presentEncode .w32 value)

/-- ENC64 (R62): the command is presented to the encoder with W = 64. -/
def execEnc64 (value : Word) (s : State) : Host.Outcome State Fault Refusal :=
  s.present (fun x => x.presentEncode .w64 value)

end Sys2Proof.Machine
end

