-- ==== Sys2Proof/Machine/Dispatch.lean ====
section
/-! DEFINITION. One arm per command (spec/opcode_table.json): what happens when the host presents it at the selected
port (10_state.md R22, 30_encoding.md R47). -/

namespace Sys2Proof.Machine

def exec (i : Instr) (s : State) : Host.Outcome State Fault Refusal :=
  match i with
  | .enc32 value => Sys2Proof.Machine.execEnc32 value s
  | .enc64 value => Sys2Proof.Machine.execEnc64 value s
  | .dec32 value => Sys2Proof.Machine.execDec32 value s
  | .dec64 value => Sys2Proof.Machine.execDec64 value s

end Sys2Proof.Machine
end

