-- ==== Sys2Proof/Machine/Perform.lean ====
section
/-! DEFINITION. What each move of the outside world does to the machine (20_memory.md section 5, 60_exceptions.md
section 4), and where the machine finds its next command. -/

namespace Sys2Proof.Machine

/-- One move of the outside world. -/
def perform (m : Move) (s : State) : Host.Outcome State Fault Refusal :=
  match m with
  | .wait => .next s.wait
  | .command k op value => exec (decodeCommand op value) { s with sel := k }
  | .withdraw k u => s.update k (fun x => x.withdraw u)
  | .srcAnswer k r => s.update k (fun x => x.srcAnswer r)
  | .sinkAnswer k a => s.update k (fun x => x.sinkAnswer a)
  | .feedSrc k bytes => s.update k (fun x => { x with src := x.src ++ bytes })
  | .connectSrc k bytes => s.connect k (fun x => x.dec.state) (fun x => { x with src := bytes })
  | .connectSink k bytes => s.connect k (fun x => x.enc.state) (fun x => { x with sink := bytes })
  | .read k r => s.hostRead k r
  | .reset choices => .next (s.resetSignal choices)

/-- One step: the oldest move of the outside world, or, where none is listed, nothing from outside (R30, R80). -/
def stepOnce (s : State) : Host.Outcome State Fault Refusal :=
  match s.env with
  | [] => perform .wait s
  | m :: rest => perform m { s with env := rest }

/-- The command in the `nbits` bits `w` presented at port 0 in the very next step; a number that is no command word
presents nothing. Log entry 6. -/
def placeCommand (s : State) (nbits w : Nat) : State :=
  match decodeTableWord nbits w with
  | some i => { s with env := .command 0 (encodeOp i) (encodeValue i) :: s.env }
  | none => s

end Sys2Proof.Machine
end

