-- ==== Sys2Proof/Machine/Step.lean ====
section
/-! DEFINITION. The step of the machine, and the placing of one command as its next. -/

namespace Sys2Proof.Machine

/-- One step of the machine. -/
def step (s : State) : Host.Outcome State Fault Refusal :=
  stepOnce s

/-- `s` with the command whose bits are `w` as what the host does next. -/
def State.withFetchWord (s : State) (nbits w : Nat) : State :=
  placeCommand s nbits w

end Sys2Proof.Machine
end

