-- ==== Sys2Proof/Machine/Assembler.lean ====
section
/-! DEFINITION. The command notation (30_encoding.md R50): a line as syntax, its check, the command it stands for, and the
notation of an outcome. Spelling a line in characters is left out; log entry 21. -/

namespace Sys2Proof.Machine

/-- The immediate of an encode line (R50). -/
inductive Imm where
  /-- A signed decimal. -/
  | dec (z : Int)
  /-- A hexadecimal bit pattern. -/
  | hex (n : Nat)
deriving DecidableEq, Repr

/-- A line; a decode line has no immediate and there are no pseudo-instructions (R50). -/
inductive Line where
  | enc32 (imm : Imm)
  | enc64 (imm : Imm)
  | dec32
  | dec64
deriving DecidableEq, Repr

/-- An immediate is in range: a decimal in -2^(W-1) .. 2^(W-1)-1, a pattern of at most W bits (R50). -/
def immFits (w : Width) : Imm → Bool
  | .dec z => decide (-(2 ^ (w.bits - 1) : Int) ≤ z ∧ z < (2 ^ (w.bits - 1) : Int))
  | .hex n => decide (n < 2 ^ w.bits)

/-- The W-bit pattern of an immediate (R4, R50). -/
def immPattern (w : Width) : Imm → BitVec w.bits
  | .dec z => toUnsigned w.bits z
  | .hex n => BitVec.ofNat w.bits n

/-- The checks on a line. -/
def lineWellFormed : Line → Bool
  | .enc32 imm => immFits .w32 imm
  | .enc64 imm => immFits .w64 imm
  | .dec32 => true
  | .dec64 => true

/-- The command of a line; VALUE above the operand is 0, as in 95_test_vectors.md P1 (log entry 21). -/
def assembleLine (l : Line) : Option Instr :=
  match lineWellFormed l, l with
  | false, _ => none
  | true, .enc32 imm => some (.enc32 (zext 64 (immPattern .w32 imm)))
  | true, .enc64 imm => some (.enc64 (zext 64 (immPattern .w64 imm)))
  | true, .dec32 => some (.dec32 0)
  | true, .dec64 => some (.dec64 0)

/-- How an outcome is written (R50): `-> <value>`, or `-> !<CODE>`. -/
inductive Shown where
  | value (z : Int)
  | error (st : Status)
deriving DecidableEq, Repr

/-- The outcome of a decode operation that has ended, as R50 writes it. -/
def showDecode (d : Decoder) : Option Shown :=
  match d.state, d.status, d.result with
  | .complete, .ok, some v => some (.value (toSigned v))
  | .complete, .ok, none => none
  | .complete, st, _ => some (.error st)
  | _, _, _ => none

end Sys2Proof.Machine
end

