-- ==== Sys2Proof/Safety.lean ====
section
/-! DEFINITION. The terms in which statements speak about runs: a run of several steps, the invariant that reachable
states satisfy (10_state.md R11-R20, 60_exceptions.md R70), which unit a move concerns. -/

namespace Sys2Proof.Machine

/-- `n` steps, stopping at the first fault or refusal. -/
def run : Nat → State → Host.Outcome State Fault Refusal
  | 0, s => .next s
  | n + 1, s =>
    match step s with
    | .next t => run n t
    | .fault r => .fault r
    | .refused r => .refused r

/-- What holds of a decoder in every state a run from reset reaches. -/
structure Decoder.Inv (d : Decoder) : Prop where
  /-- A request is outstanding only while BUSY (R20). -/
  request : d.pending = true → d.state = .busy
  /-- RESULT holds a value exactly in COMPLETE with OK (R13). -/
  result_valid : d.result.isSome = true ↔ d.state = .complete ∧ d.status = .ok
  /-- The value is the accumulator read as signed, on 64 bits (R13, R48). -/
  result_value : ∀ v, d.result = some v → v = sext 64 (zext d.w.bits d.acc)
  /-- A decoder never ends with WRITE_FAILURE (R70). -/
  own_codes : d.state = .complete → d.status ≠ .writeFailure
  /-- While BUSY, OFFSET = 7k with k at most MAX_GROUPS(W) - 1 (R17). -/
  busy_offset : d.state = .busy → ∃ k, k < d.w.maxGroups ∧ d.offset.toNat = 7 * k
  /-- While BUSY, ACC < 2^OFFSET (R17). -/
  busy_acc : d.state = .busy → d.acc.toNat < 2 ^ d.offset.toNat
  /-- After an operation, OFFSET = 7k with k at most MAX_GROUPS(W) (R9, R16). -/
  done_offset : d.state = .complete → ∃ k, k ≤ d.w.maxGroups ∧ d.offset.toNat = 7 * k
  /-- For W = 32 the bits [63:32] of ACC are held at 0 (R14). -/
  narrow_acc : d.state ≠ .idle → d.acc.toNat < 2 ^ d.w.bits

/-- What holds of an encoder in every state a run from reset reaches. -/
structure Encoder.Inv (e : Encoder) : Prop where
  /-- A byte is on offer only while BUSY (R20). -/
  request : e.pending.isSome = true → e.state = .busy
  /-- The byte on offer is the one the step forms from REM (R60). -/
  request_byte : ∀ b, e.pending = some b → b = e.formed
  /-- An encoder ends with OK or WRITE_FAILURE only (R70). -/
  own_codes : e.state = .complete → e.status = .ok ∨ e.status = .writeFailure
  /-- For W = 32 the bits [63:32] of REM are 0 (R18). -/
  narrow_rem : e.state ≠ .idle → e.rem.toNat < 2 ^ e.w.bits

/-- The machine's invariant: there is an instance (R3) and every unit of every instance meets its own. -/
structure State.Inv (s : State) : Prop where
  some_instance : s.instances ≠ []
  units : ∀ x ∈ s.instances, x.dec.Inv ∧ x.enc.Inv

/-- The unit and the instance that a move of one unit's host or stream concerns; `none` for a move that concerns
several units, that reads, or that another agent makes between operations. -/
def Move.unit : Move → Option (Nat × UnitName)
  | .command k op _ => some (k, if opIsDecode op then .decoder else .encoder)
  | .withdraw k u => some (k, u)
  | .srcAnswer k _ => some (k, .decoder)
  | .sinkAnswer k _ => some (k, .encoder)
  | .feedSrc k _ => some (k, .decoder)
  | .wait => none
  | .connectSrc _ _ => none
  | .connectSink _ _ => none
  | .read _ _ => none
  | .reset _ => none

/-- The move is the reset signal. -/
def Move.isReset : Move → Bool
  | .reset _ => true
  | _ => false

/-- The move is a silence of the outside world. -/
def Move.isWait : Move → Bool
  | .wait => true
  | _ => false

/-- What the outside world does between its silences, of which there may be any number of any length (R30). -/
def spoken (env : List Move) : List Move := env.filter (fun m => !m.isWait)

/-- A command for unit `u` stands at the port of `x`, instance `k`, in a step with move `m`: the host presents one, or
nothing comes from outside while the host goes on holding one (R22, R85). -/
def Move.offers (m : Move) (k : Nat) (x : Instance) : UnitName → Prop
  | .decoder => (∃ op value, m = .command k op value ∧ opIsDecode op = true) ∨ (m = .wait ∧ x.heldDec ≠ none)
  | .encoder => (∃ op value, m = .command k op value ∧ opIsDecode op = false) ∨ (m = .wait ∧ x.heldEnc ≠ none)

/-- The next move of the outside world: the oldest listed, or waiting where none is. -/
def State.nextMove (s : State) : Move := s.env.headD .wait

/-- `s` with instance `k` replaced by `y`. -/
def State.withInstance (s : State) (k : Nat) (y : Instance) : State :=
  { s with instances := s.instances.set k y }

/-- `s` after a move that changed instance `k` to `y`, with `rest` still to come. -/
def State.after (s : State) (rest : List Move) (k : Nat) (y : Instance) : State :=
  { s with env := rest, instances := s.instances.set k y }

/-- The OP code of the decode command of width `w` (R47). -/
def decodeOp : Width → BitVec 2
  | .w32 => 0b10#2
  | .w64 => 0b11#2

/-- The OP code of the encode command of width `w` (R47). -/
def encodeOpOf : Width → BitVec 2
  | .w32 => 0b00#2
  | .w64 => 0b01#2

/-- The outside world of one decode operation: the command, then the source's replies. -/
def decodeScript (k : Nat) (w : Width) (value : Word) (replies : List SrcReply) : List Move :=
  .command k (decodeOp w) value :: replies.map (Move.srcAnswer k)

/-- The outside world of one encode operation: the command, then the sink's answers. -/
def encodeScript (k : Nat) (w : Width) (value : Word) (answers : List SinkAnswer) : List Move :=
  .command k (encodeOpOf w) value :: answers.map (Move.sinkAnswer k)

end Sys2Proof.Machine
end

