-- ==== Sys2Proof/Certificates/Slice0/Obligations.lean ====
section
/-! DEFINITION. The statements about the model, each from the numbered rules of spec/ that its docstring names.
`x` and `y` are an instance before and after, `k` its index, `rest` and `later` moves that come afterwards. Where a whole
operation is run, `spoken` lets the outside world be silent for any number of steps between its moves (R30). -/

open Sys2Proof Sys2Proof.Machine

/-! ### Commands as bits -/

/-- The four rows of opcode_table.json, and the first command of program P1 (95_test_vectors.md), decode as the table
says. The place of VALUE in the number is the model's choice, log entry 1. -/
def Obligations.CommandWordsOfTheTable : Prop :=
  decodeTableWord 8 0x0 = some (.enc32 0) ∧ decodeTableWord 8 0x1 = some (.enc64 0) ∧
  decodeTableWord 8 0x2 = some (.dec32 0) ∧ decodeTableWord 8 0x3 = some (.dec64 0) ∧
  decodeTableWord 66 (0x12C * 4) = some (.enc32 0x12C#64) ∧
  (∀ v, decodeCommand 0b00#2 v = .enc32 v) ∧ (∀ v, decodeCommand 0b01#2 v = .enc64 v) ∧
  (∀ v, decodeCommand 0b10#2 v = .dec32 v) ∧ (∀ v, decodeCommand 0b11#2 v = .dec64 v)

/-- Decoding an encoded command gives it back with every VALUE bit, and every 66-bit number is the encoding of the
command it decodes to (30_encoding.md section 3; the layout is log entry 1). -/
def Obligations.CommandWordRoundTrip : Prop :=
  (∀ i : Instr, encodeWord i < 2 ^ 66 ∧ decodeTableWord 66 (encodeWord i) = some i) ∧
  (∀ w : Nat, w < 2 ^ 66 → ∃ i, decodeTableWord 66 w = some i ∧ encodeWord i = w)

/-- A step in which the host presents (OP, VALUE) at port `k` is `exec` of the decoded command with that port selected.
That the outside world is a list of moves is the model's choice, log entry 6. -/
def Obligations.StepRunsThePresentedCommand : Prop :=
  ∀ (s : State) (k : Nat) (op : BitVec 2) (value : Word) (rest : List Move),
    s.env = .command k op value :: rest →
    step s = exec (decodeCommand op value) { s with env := rest, sel := k }

/-- A placed command is what the very next step runs, at port 0 (log entry 6). -/
def Obligations.PlacedCommandRunsNext : Prop :=
  ∀ (s : State) (nbits w : Nat) (i : Instr), decodeTableWord nbits w = some i →
    step (s.withFetchWord nbits w) = exec i { s with sel := 0 }

/-! ### Arithmetic on patterns -/

/-- R5: bit i of `lsr_W(v, n)` is v[i+n] below W-n and 0 from there on; the encoder's shift is this shift, and REM takes
the shifted value. -/
def Obligations.LogicalShiftRightBits : Prop :=
  (∀ (W : Nat) (v : BitVec W) (n i : Nat), n < W →
    (i < W - n → (lsr v n).getLsbD i = v.getLsbD (i + n)) ∧
    (W - n ≤ i → (lsr v n).getLsbD i = false)) ∧
  (∀ (e : Encoder), fitsSeven e.remaining = false →
    (e.take .ok).rem = zext 64 (lsr e.remaining 7))

/-- R6: bit i of `shl_W(v, n)` is v[i-n] from n on and 0 below; the result is the low W bits of v × 2^n; the decoder puts
a byte's data bits into its accumulator by this shift and an OR. -/
def Obligations.LeftShiftBits : Prop :=
  (∀ (W : Nat) (v : BitVec W) (n : Nat), n < W →
    (∀ i, n ≤ i → i < W → (shl v n).getLsbD i = v.getLsbD (i - n)) ∧
    (∀ i, i < n → (shl v n).getLsbD i = false) ∧
    (shl v n).toNat = v.toNat * 2 ^ n % 2 ^ W) ∧
  (∀ (d : Decoder) (b : Byte), (d.takeByte b).acc =
    zext 64 (zext d.w.bits d.acc ||| shl (zext d.w.bits (b.extractLsb' 0 7)) d.offset.toNat))

/-- R4: the numeric readings, and that reading a pattern as signed and back changes no bit. -/
def Obligations.SignedReading : Prop :=
  ∀ (W : Nat), 0 < W →
    (∀ u : BitVec W, toSigned u = if u.getLsbD (W - 1) then (u.toNat : Int) - 2 ^ W else u.toNat) ∧
    (∀ z : Int, -(2 ^ (W - 1) : Int) ≤ z → z < 2 ^ (W - 1) →
      ((toUnsigned W z).toNat : Int) = if z < 0 then z + 2 ^ W else z) ∧
    (∀ u : BitVec W, toUnsigned W (toSigned u) = u)

/-! ### Presenting a command -/

/-- R51: a decode command presented to a decoder in IDLE or COMPLETE is accepted and performs the start step: these
five registers, no byte read, VALUE ignored, nothing else (`h` is what the host's slot of log entry 11 then holds). -/
def Obligations.DecodeCommandStarts : Prop :=
  ∀ (s : State) (x : Instance) (value : Word),
    s.instances[s.sel]? = some x → (x.dec.state = .idle ∨ x.dec.state = .complete) →
    (∃ h, exec (.dec32 value) s = .next (s.withInstance s.sel { x with
      dec := { x.dec with w := .w32, acc := 0, offset := 0, result := none, state := .busy }, heldDec := h })) ∧
    (∃ h, exec (.dec64 value) s = .next (s.withInstance s.sel { x with
      dec := { x.dec with w := .w64, acc := 0, offset := 0, result := none, state := .busy }, heldDec := h }))

/-- R59: an encode command presented to an encoder in IDLE or COMPLETE is accepted and performs the start step: VALUE is
sampled into REM, for W = 32 only VALUE[31:0], no byte is written, nothing else changes (`h` as in R51's statement). -/
def Obligations.EncodeCommandStarts : Prop :=
  ∀ (s : State) (x : Instance) (value : Word),
    s.instances[s.sel]? = some x → (x.enc.state = .idle ∨ x.enc.state = .complete) →
    (∃ h, exec (.enc32 value) s = .next (s.withInstance s.sel { x with
      enc := { x.enc with w := .w32, rem := value &&& 0xFFFFFFFF#64, state := .busy }, heldEnc := h })) ∧
    (∃ h, exec (.enc64 value) s = .next (s.withInstance s.sel { x with
      enc := { x.enc with w := .w64, rem := value, state := .busy }, heldEnc := h }))

/-- R85: a command to a BUSY unit takes no effect in the block and stays with the host, which may withdraw it; it does
not hold back a command to the other unit. The slot the host's command is kept in, empty once a command of the unit is
accepted, is log entry 11. -/
def Obligations.BusyUnitLeavesCommandWithHost : Prop :=
  ∀ (s : State) (x : Instance) (value : Word),
    s.instances[s.sel]? = some x →
    (x.dec.state = .busy →
      exec (.dec32 value) s = .next (s.withInstance s.sel { x with heldDec := some ⟨.w32, value⟩ }) ∧
      exec (.dec64 value) s = .next (s.withInstance s.sel { x with heldDec := some ⟨.w64, value⟩ }) ∧
      ∀ v, x.enc.state ≠ .busy → ∀ i, i = .enc32 v ∨ i = .enc64 v →
        ∃ t y, exec i s = .next t ∧ t.instances[s.sel]? = some y ∧ y.enc.state = .busy ∧ y.heldEnc = none ∧
          y.dec = x.dec ∧ y.heldDec = x.heldDec) ∧
    (x.enc.state = .busy →
      exec (.enc32 value) s = .next (s.withInstance s.sel { x with heldEnc := some ⟨.w32, value⟩ }) ∧
      exec (.enc64 value) s = .next (s.withInstance s.sel { x with heldEnc := some ⟨.w64, value⟩ }) ∧
      ∀ v, x.dec.state ≠ .busy → ∀ i, i = .dec32 v ∨ i = .dec64 v →
        ∃ t y, exec i s = .next t ∧ t.instances[s.sel]? = some y ∧ y.dec.state = .busy ∧ y.heldDec = none ∧
          y.enc = x.enc ∧ y.heldEnc = x.heldEnc) ∧
    (∀ rest, s.env = .withdraw s.sel .decoder :: rest →
      step s = .next (s.after rest s.sel { x with heldDec := none })) ∧
    (∀ rest, s.env = .withdraw s.sel .encoder :: rest →
      step s = .next (s.after rest s.sel { x with heldEnc := none }))

/-- A command the host goes on presenting is accepted once its unit is not BUSY, by the same start step (R22). That this
happens in a step in which nothing else comes from outside is log entry 12. -/
def Obligations.HeldCommandStartsWhenReady : Prop :=
  ∀ (s : State) (k : Nat) (x : Instance),
    s.instances[k]? = some x → (s.env = [] ∨ ∃ rest, s.env = .wait :: rest) →
    (∀ c, x.heldDec = some c → x.dec.state ≠ .busy →
      ∃ t y, step s = .next t ∧ t.instances[k]? = some y ∧ y.heldDec = none ∧ y.src = x.src ∧
        y.dec = { x.dec with w := c.w, acc := 0, offset := 0, result := none, state := .busy }) ∧
    (∀ c, x.heldEnc = some c → x.enc.state ≠ .busy →
      ∃ t y, step s = .next t ∧ t.instances[k]? = some y ∧ y.heldEnc = none ∧ y.sink = x.sink ∧
        y.enc = { x.enc with w := c.w, rem := (c.value.setWidth c.w.bits).setWidth 64, state := .busy })

/-- No command is rejected for its bits: every OP with every VALUE answers a next state; VALUE does not matter to a
decode command, nor VALUE[63:32] to ENC32 (R48, R49). The hypothesis is that the selected port exists. -/
def Obligations.EveryCommandIsTaken : Prop :=
  ∀ (s : State) (x : Instance), s.instances[s.sel]? = some x →
    (∀ op value, ∃ t, exec (decodeCommand op value) s = .next t) ∧
    (x.dec.state ≠ .busy → ∀ v v',
      exec (.dec32 v) s = exec (.dec32 v') s ∧ exec (.dec64 v) s = exec (.dec64 v') s) ∧
    (x.enc.state ≠ .busy → ∀ v v', v.extractLsb' 0 32 = v'.extractLsb' 0 32 →
      exec (.enc32 v) s = exec (.enc32 v') s)

/-- The frame of ENC32, ENC64, DEC32, DEC64: presenting a command moves no byte of any stream, writes no STATUS and no
PENDING, and leaves every other instance, the other unit of its own, and the model's other fields as they are. -/
def Obligations.CommandFrame : Prop :=
  ∀ (i : Instr) (s t : State), exec i s = .next t →
    t.sel = s.sel ∧ t.env = s.env ∧ t.reads = s.reads ∧ t.draws = s.draws ∧
    t.instances.length = s.instances.length ∧
    (∀ k, k ≠ s.sel → t.instances[k]? = s.instances[k]?) ∧
    (∀ x y, s.instances[s.sel]? = some x → t.instances[s.sel]? = some y →
      y.src = x.src ∧ y.sink = x.sink ∧
      y.dec.status = x.dec.status ∧ y.dec.pending = x.dec.pending ∧
      y.enc.status = x.enc.status ∧ y.enc.pending = x.enc.pending ∧
      (i = .dec32 (encodeValue i) ∨ i = .dec64 (encodeValue i) → y.enc = x.enc ∧ y.heldEnc = x.heldEnc) ∧
      (i = .enc32 (encodeValue i) ∨ i = .enc64 (encodeValue i) → y.dec = x.dec ∧ y.heldDec = x.heldDec))

/-! ### One decode step -/

/-- R52: the decode step. It holds while the source is silent. A `Fail` ends the operation with READ_FAILURE; a byte is
consumed, ORed into ACC at OFFSET inside W bits, OFFSET advances by 7, and C = 0 ends with OK and the signed reading of
ACC, else OFFSET ≥ W ends with OVERLONG, else the unit stays BUSY. -/
def Obligations.DecodeStepOutcome : Prop :=
  ∀ (s : State) (k : Nat) (x : Instance) (rest : List Move),
    s.instances[k]? = some x → x.dec.state = .busy →
    (s.env = .wait :: rest → ∃ t y p, step s = .next t ∧ t.env = rest ∧ t.instances[k]? = some y ∧ y.src = x.src ∧
      y.dec = { x.dec with pending := p }) ∧
    (s.env = .srcAnswer k .fail :: rest →
      step s = .next (s.after rest k { x with
        dec := { x.dec with pending := false, result := none, state := .complete, status := .readFailure } })) ∧
    (∀ b bs, s.env = .srcAnswer k .deliver :: rest → x.src = b :: bs → x.dec.w = .w32 →
      let acc : BitVec 32 := x.dec.acc.setWidth 32 ||| ((b &&& 0x7F#8).setWidth 32 <<< x.dec.offset.toNat)
      let offset := x.dec.offset + 7
      step s = .next (s.after rest k { x with
        src := bs
        dec := { x.dec with
          acc := acc.setWidth 64, offset := offset, pending := false
          result := if b.getLsbD 7 = false then some (acc.signExtend 64)
            else if 32 ≤ offset.toNat then none else x.dec.result
          state := if b.getLsbD 7 = false ∨ 32 ≤ offset.toNat then .complete else .busy
          status := if b.getLsbD 7 = false then .ok else if 32 ≤ offset.toNat then .overlong else x.dec.status } })) ∧
    (∀ b bs, s.env = .srcAnswer k .deliver :: rest → x.src = b :: bs → x.dec.w = .w64 →
      let acc : BitVec 64 := x.dec.acc ||| ((b &&& 0x7F#8).setWidth 64 <<< x.dec.offset.toNat)
      let offset := x.dec.offset + 7
      step s = .next (s.after rest k { x with
        src := bs
        dec := { x.dec with
          acc := acc, offset := offset, pending := false
          result := if b.getLsbD 7 = false then some acc
            else if 64 ≤ offset.toNat then none else x.dec.result
          state := if b.getLsbD 7 = false ∨ 64 ≤ offset.toNat then .complete else .busy
          status := if b.getLsbD 7 = false then .ok else if 64 ≤ offset.toNat then .overlong else x.dec.status } }))

/-- A source that is asked for its next byte and has none answers as one that cannot supply a byte: READ_FAILURE, nothing
consumed (R27, R46). That the model writes the source as a finite list is log entry 9. -/
def Obligations.EmptySourceFails : Prop :=
  ∀ (s : State) (k : Nat) (x : Instance) (rest : List Move),
    s.instances[k]? = some x → x.dec.state = .busy → x.src = [] → s.env = .srcAnswer k .deliver :: rest →
    step s = .next (s.after rest k { x with
      dec := { x.dec with pending := false, result := none, state := .complete, status := .readFailure } })

/-- R72: the order of the checks, at every group index `j` of either width: Fail first, then C = 0 (also at the last
index), then OVERLONG at the last index only, else continue; and the one check of an encode step. -/
def Obligations.CheckOrder : Prop :=
  (∀ (d : Decoder) (j : Nat), d.state = .busy → j < d.w.maxGroups → d.offset.toNat = 7 * j →
    ((d.take .fail).state = .complete ∧ (d.take .fail).status = .readFailure) ∧
    ∀ b : Byte,
      (b.getLsbD 7 = false → (d.take (.byte b)).state = .complete ∧ (d.take (.byte b)).status = .ok) ∧
      (b.getLsbD 7 = true → j + 1 = d.w.maxGroups →
        (d.take (.byte b)).state = .complete ∧ (d.take (.byte b)).status = .overlong) ∧
      (b.getLsbD 7 = true → j + 1 < d.w.maxGroups →
        (d.take (.byte b)).state = .busy ∧ (d.take (.byte b)).offset.toNat = 7 * (j + 1))) ∧
  (∀ (e : Encoder), e.state = .busy →
    ((e.take .fail).state = .complete ∧ (e.take .fail).status = .writeFailure) ∧
    (((e.take .ok).state = .complete ∧ (e.take .ok).status = .ok) ∨ (e.take .ok).state = .busy))

/-! ### One encode step -/

/-- R60: the encode step, for an encoder that offers the byte the step forms (the invariant: no byte outstanding, or that
one). It holds while the sink is silent. `r` is REM[W-1:0]; the byte goes to the sink on `Ok` only. -/
def Obligations.EncodeStepOutcome : Prop :=
  ∀ (s : State) (k : Nat) (x : Instance) (rest : List Move),
    s.instances[k]? = some x → x.enc.state = .busy →
    (s.env = .wait :: rest → ∃ t y p, step s = .next t ∧ t.env = rest ∧ t.instances[k]? = some y ∧ y.sink = x.sink ∧
      y.enc = { x.enc with pending := p }) ∧
    (s.env = .sinkAnswer k .fail :: rest →
      step s = .next (s.after rest k { x with
        enc := { x.enc with pending := none, state := .complete, status := .writeFailure } })) ∧
    (s.env = .sinkAnswer k .ok :: rest → x.enc.w = .w32 →
      let r : BitVec 32 := x.enc.rem.setWidth 32
      let b : Byte := if r &&& ~~~0x7F#32 = 0 then r.setWidth 8 else 0x80#8 ||| (r &&& 0x7F#32).setWidth 8
      x.enc.pending = none ∨ x.enc.pending = some b →
      step s = .next (s.after rest k { x with
        sink := x.sink ++ [b]
        enc := if r &&& ~~~0x7F#32 = 0 then { x.enc with pending := none, state := .complete, status := .ok }
          else { x.enc with pending := none, rem := (r >>> 7).setWidth 64 } })) ∧
    (s.env = .sinkAnswer k .ok :: rest → x.enc.w = .w64 →
      let r : BitVec 64 := x.enc.rem
      let b : Byte := if r &&& ~~~0x7F#64 = 0 then r.setWidth 8 else 0x80#8 ||| (r &&& 0x7F#64).setWidth 8
      x.enc.pending = none ∨ x.enc.pending = some b →
      step s = .next (s.after rest k { x with
        sink := x.sink ++ [b]
        enc := if r &&& ~~~0x7F#64 = 0 then { x.enc with pending := none, state := .complete, status := .ok }
          else { x.enc with pending := none, rem := r >>> 7 } }))

/-! ### Waiting -/

/-- An answer no unit asked for changes nothing: after its operation a unit makes no stream request (R35, R71). That the
answer is then ignored is the model's reading of 20_memory.md section 5, log entry 8. -/
def Obligations.AnswerWithoutRequestIgnored : Prop :=
  ∀ (s : State) (k : Nat) (x : Instance) (rest : List Move), s.instances[k]? = some x →
    (∀ r, x.dec.state ≠ .busy → s.env = .srcAnswer k r :: rest → step s = .next { s with env := rest }) ∧
    (∀ a, x.enc.state ≠ .busy → s.env = .sinkAnswer k a :: rest → step s = .next { s with env := rest })

/-- While a stream does not answer, a unit holds in BUSY for any number of steps with its request outstanding; its
registers and its stream do not change (R20, R30). Log entries 6 and 7 say how the model writes a silent environment. -/
def Obligations.UnansweredRequestHolds : Prop :=
  ∀ (n : Nat) (s : State) (k : Nat) (x : Instance), s.instances[k]? = some x → s.env = [] →
    (x.dec.state = .busy → ∃ t y, run n s = .next t ∧ t.instances[k]? = some y ∧ y.src = x.src ∧
      y.dec = { x.dec with pending := x.dec.pending || decide (0 < n) }) ∧
    (x.enc.state = .busy → ∃ t y, run n s = .next t ∧ t.instances[k]? = some y ∧ y.sink = x.sink ∧
      y.enc = { x.enc with pending := if n = 0 then x.enc.pending else some x.enc.offered })

/-! ### The wire format -/

/-- R41: bit m of the pattern a group sequence spells is data bit m % 7 of group m / 7, for m below W, and its value is
the signed reading of that pattern; the groups an
encoder writes are its inverse: group i holds u[7i+6 : 7i], with C = 1 but on the last. -/
def Obligations.GroupPlacesItsDataBits : Prop :=
  (∀ (W : Nat) (gs : List Byte) (m : Nat), m < W →
    (assemble W gs).getLsbD m = ((gs[m / 7]?).getD 0).getLsbD (m % 7)) ∧
  (∀ (W : Nat) (gs : List Byte), decodeValue W gs = toSigned (assemble W gs)) ∧
  (∀ (w : Width) (u : BitVec w.bits) (i : Nat) (g : Byte), (encodeGroups w u)[i]? = some g →
    (∀ m, m < 7 → g.getLsbD m = u.getLsbD (7 * i + m)) ∧
    (g.getLsbD 7 = true ↔ i + 1 < (encodeGroups w u).length))

/-- R44: the recursion for the length, the closed form, the table of ranges, and that the encoder's sequence has it. -/
def Obligations.EncodedLength : Prop :=
  ∀ (w : Width) (u : BitVec w.bits),
    groupLength u = (if u.toNat < 2 ^ 7 then 1 else 1 + groupLength (lsr u 7)) ∧
    groupLength u = max 1 ((bitLen u + 6) / 7) ∧
    u.toNat < 2 ^ bitLen u ∧ (0 < bitLen u → u.getLsbD (bitLen u - 1) = true) ∧
    (∀ n, 1 ≤ n → (groupLength u = n ↔ (n = 1 ∨ 2 ^ (7 * (n - 1)) ≤ u.toNat) ∧ u.toNat < 2 ^ (7 * n))) ∧
    (encodeGroups w u).length = groupLength u

/-- R64: a negative operand takes exactly MAX_GROUPS groups, the last one without excess bits: 0x08..0x0F for W = 32, and
0x01 for W = 64; no operand sets an excess bit. -/
def Obligations.NegativeTakesAllGroups : Prop :=
  (∀ u : BitVec 32, u.getLsbD 31 = true →
    ∃ gs g, encodeGroups .w32 u = gs ++ [g] ∧ gs.length = 4 ∧ (∀ b ∈ gs, b.getLsbD 7 = true) ∧
      g = (u >>> 28).setWidth 8 ∧ 0x08 ≤ g.toNat ∧ g.toNat ≤ 0x0F) ∧
  (∀ u : BitVec 64, u.getLsbD 63 = true →
    ∃ gs, encodeGroups .w64 u = gs ++ [0x01#8] ∧ gs.length = 9 ∧ (∀ b ∈ gs, b.getLsbD 7 = true)) ∧
  (∀ (u : BitVec 32) (g : Byte), (encodeGroups .w32 u)[4]? = some g → g.toNat ≤ 0x0F) ∧
  (∀ (u : BitVec 64) (g : Byte), (encodeGroups .w64 u)[9]? = some g → g.toNat ≤ 0x01)

/-- R42: of the group at index MAX_GROUPS - 1 only DATA[3:0] (W = 32) or DATA[0] (W = 64) counts, filling [31:28] or
[63]; the excess bits have no effect on the value, cause no error, and the encoder never sets one. -/
def Obligations.ExcessBitsHaveNoEffect : Prop :=
  (∀ (gs : List Byte) (g g' : Byte), gs.length = 4 → g &&& 0x0F#8 = g' &&& 0x0F#8 →
    assemble 32 (gs ++ [g]) = assemble 32 (gs ++ [g']) ∧
    (assemble 32 (gs ++ [g])).extractLsb' 28 4 = g.extractLsb' 0 4) ∧
  (∀ (gs : List Byte) (g g' : Byte), gs.length = 9 → g &&& 0x01#8 = g' &&& 0x01#8 →
    assemble 64 (gs ++ [g]) = assemble 64 (gs ++ [g']) ∧
    (assemble 64 (gs ++ [g])).extractLsb' 63 1 = g.extractLsb' 0 1) ∧
  (∀ (d : Decoder) (b : Byte), b.getLsbD 7 = false →
    (d.take (.byte b)).state = .complete ∧ (d.take (.byte b)).status = .ok) ∧
  (∀ (u : BitVec 32) (g : Byte), (encodeGroups .w32 u)[4]? = some g → g &&& 0xF0#8 = 0) ∧
  (∀ (u : BitVec 64) (g : Byte), (encodeGroups .w64 u)[9]? = some g → g &&& 0xFE#8 = 0)

/-- Padding groups (R57) leave the value as it is: a sequence followed by `n` groups `80` and a final `00`, its old final
group now with C = 1, is accepted within MAX_GROUPS and spells the same value. -/
def Obligations.PaddingKeepsTheValue : Prop :=
  ∀ (w : Width) (gs : List Byte) (g : Byte) (n : Nat),
    (∀ b ∈ gs, b.getLsbD 7 = true) → g.getLsbD 7 = false → gs.length + n + 2 ≤ w.maxGroups →
    accepted w (gs ++ [g]) = true ∧
    accepted w (gs ++ [g ||| 0x80#8] ++ List.replicate n 0x80#8 ++ [0x00#8]) = true ∧
    assemble w.bits (gs ++ [g ||| 0x80#8] ++ List.replicate n 0x80#8 ++ [0x00#8]) = assemble w.bits (gs ++ [g])

/-- A value from 0 to 2^31 - 1 has the same bytes as VarInt and as VarLong; a negative one has 5 and 10 (R33). -/
def Obligations.WidthsAgreeOnNonnegative : Prop :=
  (∀ v : Word, v.toNat < 2 ^ 31 → encodeGroups .w32 (v.setWidth 32) = encodeGroups .w64 v) ∧
  (∀ v : BitVec 32, v.getLsbD 31 = true →
    (encodeGroups .w32 v).length = 5 ∧ (encodeGroups .w64 (v.signExtend 64)).length = 10)

/-- R67: no shorter sequence that the decoder accepts spells the pattern, and the encoder's last group is not zero but as
the sole group of 0; where MAX_GROUPS leaves room, a longer accepted sequence spells it too, and is not the encoder's. -/
def Obligations.EncodingIsMinimal : Prop :=
  ∀ (w : Width) (u : BitVec w.bits),
    accepted w (encodeGroups w u) = true ∧ assemble w.bits (encodeGroups w u) = u ∧
    (∀ gs, assemble w.bits gs = u → gs ≠ [] → (encodeGroups w u).length ≤ gs.length) ∧
    (∀ gs g, encodeGroups w u = gs ++ [g] → g = 0 → gs = [] ∧ u = 0) ∧
    (∀ n, (encodeGroups w u).length < n → n ≤ w.maxGroups →
      ∃ gs, gs.length = n ∧ accepted w gs = true ∧ assemble w.bits gs = u ∧ gs ≠ encodeGroups w u)

/-! ### Whole operations -/

/-- R45, R57 and R58: a decode operation on bytes g_0 .. g_k with C = 1 on all but the last, k < MAX_GROUPS(W), takes its
start step and k + 1 decode steps, consumes exactly those bytes and ends with OK and their signed value, whatever came
before and whatever follows, minimal or not, excess bits or not. -/
def Obligations.AcceptedSequenceDecodes : Prop :=
  ∀ (w : Width) (value : Word) (s : State) (x : Instance) (k : Nat) (gs : List Byte) (g : Byte) (bytes : List Byte),
    s.instances[k]? = some x → x.dec.state ≠ .busy → x.heldDec = none → x.src = gs ++ g :: bytes →
    gs.length < w.maxGroups → (∀ b ∈ gs, b.getLsbD 7 = true) → g.getLsbD 7 = false →
    spoken s.env = decodeScript k w value (List.replicate (gs.length + 1) .deliver) →
    ∃ t y v, run s.env.length s = .next t ∧ t.instances[k]? = some y ∧
      y.dec.state = .complete ∧ y.dec.status = .ok ∧ y.dec.result = some v ∧
      toSigned v = decodeValue w.bits (gs ++ [g]) ∧ y.src = bytes ∧ y.dec.offset.toNat = 7 * (gs.length + 1)

/-- R56: MAX_GROUPS(W) bytes with C = 1, whatever their data bits, are consumed and end with OVERLONG; and, of R46, a
source that fails after fewer bytes with C = 1 ends with READ_FAILURE. No value results, and every byte after those consumed
stays in the source. -/
def Obligations.RejectedSequences : Prop :=
  ∀ (w : Width) (value : Word) (s : State) (x : Instance) (k : Nat) (gs bytes : List Byte),
    s.instances[k]? = some x → x.dec.state ≠ .busy → x.heldDec = none → x.src = gs ++ bytes →
    (∀ b ∈ gs, b.getLsbD 7 = true) →
    (gs.length = w.maxGroups → spoken s.env = decodeScript k w value (List.replicate gs.length .deliver) →
      ∃ t y, run s.env.length s = .next t ∧ t.instances[k]? = some y ∧ y.dec.state = .complete ∧
        y.dec.status = .overlong ∧ y.dec.result = none ∧ y.src = bytes ∧ y.dec.offset.toNat = 7 * gs.length) ∧
    (gs.length < w.maxGroups →
      spoken s.env = decodeScript k w value (List.replicate gs.length .deliver ++ [.fail]) →
      ∃ t y, run s.env.length s = .next t ∧ t.instances[k]? = some y ∧ y.dec.state = .complete ∧
        y.dec.status = .readFailure ∧ y.dec.result = none ∧ y.src = bytes ∧ y.dec.offset.toNat = 7 * gs.length)

/-- R17: whenever a decode operation that was given the bytes `gs` is still BUSY, it has consumed them, OFFSET = 7k for
their number k ≤ MAX_GROUPS(W) - 1, ACC < 2^OFFSET, and ACC holds their data bits, the first byte's in the lowest 7; and it is
still BUSY after any k ≤ MAX_GROUPS(W) - 1 bytes with C = 1. -/
def Obligations.AccumulatorWhileDecoding : Prop :=
  ∀ (w : Width) (value : Word) (s : State) (x : Instance) (k : Nat) (gs bytes : List Byte) (env later : List Move),
    s.instances[k]? = some x → x.dec.state ≠ .busy → x.heldDec = none → x.src = gs ++ bytes →
    s.env = env ++ later → spoken env = decodeScript k w value (List.replicate gs.length .deliver) →
    ∃ t y, run env.length s = .next t ∧ t.env = later ∧ t.instances[k]? = some y ∧
      (y.dec.state = .busy → y.src = bytes ∧ gs.length ≤ w.maxGroups - 1 ∧
        y.dec.offset.toNat = 7 * gs.length ∧ y.dec.acc.toNat < 2 ^ y.dec.offset.toNat ∧
        (∀ m, m < 7 * gs.length → y.dec.acc.getLsbD m = ((gs[m / 7]?).getD 0).getLsbD (m % 7))) ∧
      ((∀ b ∈ gs, b.getLsbD 7 = true) → gs.length ≤ w.maxGroups - 1 → y.dec.state = .busy)

/-- If the sink answers every request, an encode operation takes its start step and L_W(u) ≤ MAX_GROUPS(W) encode steps,
appends exactly the L_W(u) groups of u, a sequence that no decoder finds overlong, and ends with OK (R61, R62, R63). -/
def Obligations.EncodeWritesTheGroups : Prop :=
  ∀ (w : Width) (value : Word) (s : State) (x : Instance) (k : Nat),
    s.instances[k]? = some x → x.enc.state ≠ .busy → x.enc.pending = none → x.heldEnc = none →
    spoken s.env = encodeScript k w value (List.replicate (groupLength (value.setWidth w.bits)) .ok) →
    ∃ t y, run s.env.length s = .next t ∧ t.instances[k]? = some y ∧
      y.enc.state = .complete ∧ y.enc.status = .ok ∧
      y.sink = x.sink ++ encodeGroups w (value.setWidth w.bits) ∧
      (encodeGroups w (value.setWidth w.bits)).length = groupLength (value.setWidth w.bits) ∧
      groupLength (value.setWidth w.bits) ≤ w.maxGroups ∧ accepted w (encodeGroups w (value.setWidth w.bits)) = true

/-- R19: whenever an encode operation whose sink has accepted k bytes is still BUSY, REM = lsr_W(u, 7k) with
k ≤ MAX_GROUPS(W) - 1, and the sink holds the first k groups; and it is still BUSY for every k < L_W(u). -/
def Obligations.RemainingWhileEncoding : Prop :=
  ∀ (w : Width) (value : Word) (s : State) (x : Instance) (k j : Nat) (env later : List Move),
    s.instances[k]? = some x → x.enc.state ≠ .busy → x.enc.pending = none → x.heldEnc = none →
    s.env = env ++ later → spoken env = encodeScript k w value (List.replicate j .ok) →
    ∃ t y, run env.length s = .next t ∧ t.env = later ∧ t.instances[k]? = some y ∧
      (y.enc.state = .busy → j ≤ w.maxGroups - 1 ∧ y.enc.w = w ∧
        y.enc.rem = zext 64 (lsr (value.setWidth w.bits) (7 * j)) ∧
        y.sink = x.sink ++ (encodeGroups w (value.setWidth w.bits)).take j) ∧
      (j < groupLength (value.setWidth w.bits) → y.enc.state = .busy)

/-- R65: a `Fail` after j < L_W(u) bytes accepted ends the operation with WRITE_FAILURE and leaves exactly the first j
groups in the sink; the byte that failed is not appended. -/
def Obligations.WriteFailureLeavesPrefix : Prop :=
  ∀ (w : Width) (value : Word) (s : State) (x : Instance) (k j : Nat),
    s.instances[k]? = some x → x.enc.state ≠ .busy → x.enc.pending = none → x.heldEnc = none →
    j < groupLength (value.setWidth w.bits) →
    spoken s.env = encodeScript k w value (List.replicate j .ok ++ [.fail]) →
    ∃ t y, run s.env.length s = .next t ∧ t.instances[k]? = some y ∧ y.enc.state = .complete ∧
      y.enc.status = .writeFailure ∧ y.sink = x.sink ++ (encodeGroups w (value.setWidth w.bits)).take j ∧
      ((encodeGroups w (value.setWidth w.bits)).take j).length = j

/-- R66: what ENC_W writes for v to a sink, given in order to DEC_W as its source, is consumed exactly and decodes to v
with OK, whatever follows it in the source; the two machines need not be the same. -/
def Obligations.RoundTrip : Prop :=
  ∀ (w : Width) (value value' : Word) (s s' : State) (x x' : Instance) (k k' : Nat) (bytes : List Byte),
    s.instances[k]? = some x → x.enc.state ≠ .busy → x.enc.pending = none → x.heldEnc = none →
    spoken s.env = encodeScript k w value (List.replicate (groupLength (value.setWidth w.bits)) .ok) →
    ∃ t y out, run s.env.length s = .next t ∧ t.instances[k]? = some y ∧
      y.enc.state = .complete ∧ y.enc.status = .ok ∧
      y.sink = x.sink ++ out ∧ out.length = groupLength (value.setWidth w.bits) ∧
      (s'.instances[k']? = some x' → x'.dec.state ≠ .busy → x'.heldDec = none → x'.src = out ++ bytes →
        spoken s'.env = decodeScript k' w value' (List.replicate out.length .deliver) →
        ∃ t' y', run s'.env.length s' = .next t' ∧ t'.instances[k']? = some y' ∧ y'.src = bytes ∧
          y'.dec.state = .complete ∧ y'.dec.status = .ok ∧
          y'.dec.result = some ((value.setWidth w.bits).signExtend 64))

/-- From any decode in progress that meets the invariant, the operation ends once the source has given MAX_GROUPS(W)
answers, whatever they are and however long it took (R9, R30: that it answers is the premise). -/
def Obligations.AnsweredDecodeEnds : Prop :=
  ∀ (s : State) (k : Nat) (x : Instance) (replies : List SrcReply),
    s.instances[k]? = some x → x.dec.Inv → x.dec.state = .busy → x.heldDec = none →
    replies.length = x.dec.w.maxGroups → spoken s.env = replies.map (Move.srcAnswer k) →
    ∃ t y, run s.env.length s = .next t ∧ t.instances[k]? = some y ∧ y.dec.state = .complete

/-- From any encode in progress, the operation ends once the sink has given MAX_GROUPS(W) answers, whatever they are,
however long it took and whatever REM holds. -/
def Obligations.AnsweredEncodeEnds : Prop :=
  ∀ (s : State) (k : Nat) (x : Instance) (answers : List SinkAnswer),
    s.instances[k]? = some x → x.enc.state = .busy → x.heldEnc = none →
    answers.length = x.enc.w.maxGroups → spoken s.env = answers.map (Move.sinkAnswer k) →
    ∃ t y, run s.env.length s = .next t ∧ t.instances[k]? = some y ∧ y.enc.state = .complete

/-- R83: two machines whose units are in IDLE or COMPLETE, with no byte on offer and no command held, and that differ in
anything else (in every register that reset leaves unspecified), run the same operation on the same stream alike, each
with its own silences: nothing left over reaches a result. STATUS agrees once the operation has ended. That an answer
after the end changes nothing is the model's reading, log entry 8. -/
def Obligations.NothingCarriedOver : Prop :=
  (∀ (w : Width) (value value' : Word) (s s' : State) (x x' : Instance) (k k' : Nat) (replies : List SrcReply),
    s.instances[k]? = some x → s'.instances[k']? = some x' →
    (x.dec.state = .idle ∨ x.dec.state = .complete) → (x'.dec.state = .idle ∨ x'.dec.state = .complete) →
    x.heldDec = none → x'.heldDec = none → x.src = x'.src →
    spoken s.env = decodeScript k w value replies → spoken s'.env = decodeScript k' w value' replies →
    ∃ t t' y y', run s.env.length s = .next t ∧ run s'.env.length s' = .next t' ∧
      t.instances[k]? = some y ∧ t'.instances[k']? = some y' ∧ y.src = y'.src ∧
      y'.dec = { y.dec with status := y'.dec.status, pending := y'.dec.pending } ∧
      (y.dec.state = .complete → y.dec.status = y'.dec.status)) ∧
  (∀ (w : Width) (value : Word) (s s' : State) (x x' : Instance) (k k' : Nat) (answers : List SinkAnswer),
    s.instances[k]? = some x → s'.instances[k']? = some x' →
    (x.enc.state = .idle ∨ x.enc.state = .complete) → (x'.enc.state = .idle ∨ x'.enc.state = .complete) →
    x.enc.pending = none → x'.enc.pending = none → x.heldEnc = none → x'.heldEnc = none →
    spoken s.env = encodeScript k w value answers → spoken s'.env = encodeScript k' w value answers →
    ∃ t t' y y' out, run s.env.length s = .next t ∧ run s'.env.length s' = .next t' ∧
      t.instances[k]? = some y ∧ t'.instances[k']? = some y' ∧ y.sink = x.sink ++ out ∧ y'.sink = x'.sink ++ out ∧
      y'.enc = { y.enc with status := y'.enc.status, pending := y'.enc.pending } ∧
      (y.enc.state = .complete → y.enc.status = y'.enc.status))

/-! ### Rules of the whole machine -/

/-- Moves that concern different units, of one instance or of two, leave the same units in either order: no interleaving
changes any unit's result (R37). The moves covered are those of `Move.unit`. -/
def Obligations.UnitsCommute : Prop :=
  ∀ (s : State) (m m' : Move) (k k' : Nat) (u u' : UnitName),
    m.unit = some (k, u) → m'.unit = some (k', u') → (k, u) ≠ (k', u') →
    k < s.instances.length → k' < s.instances.length →
    ∃ s1 s2 t1 t2, perform m s = .next s1 ∧ perform m' s1 = .next t1 ∧
      perform m' s = .next s2 ∧ perform m s2 = .next t2 ∧ t1.instances = t2.instances

/-- A move of one unit's host or stream leaves every other unit, with its stream and its host's command, as it was: no
state is shared between units or instances (R3). -/
def Obligations.OtherUnitsUntouched : Prop :=
  ∀ (s t : State) (m : Move) (k : Nat) (u : UnitName), m.unit = some (k, u) → perform m s = .next t →
    t.instances.length = s.instances.length ∧
    (∀ j, j ≠ k → t.instances[j]? = s.instances[j]?) ∧
    (∀ x y, s.instances[k]? = some x → t.instances[k]? = some y →
      (u = .encoder → y.dec = x.dec ∧ y.src = x.src ∧ y.heldDec = x.heldDec) ∧
      (u = .decoder → y.enc = x.enc ∧ y.sink = x.sink ∧ y.heldEnc = x.heldEnc))

/-- R11, R15, R22 and R80: STATE moves only from IDLE or COMPLETE to BUSY, and only where a command of that unit stands at
its port (the host presents it, or holds it in a silence: log entries 11 and 12), and from BUSY to COMPLETE, and only on
an answer of the unit's stream; a reset apart, which alone makes a unit IDLE. An error leaves no valid RESULT. -/
def Obligations.StateTransitions : Prop :=
  ∀ (s t : State) (k : Nat) (x y : Instance),
    step s = .next t → s.nextMove.isReset = false → s.instances[k]? = some x → t.instances[k]? = some y →
    (y.dec.state = x.dec.state ∨
      (x.dec.state ≠ .busy ∧ y.dec.state = .busy ∧ s.nextMove.offers k x .decoder) ∨
      (x.dec.state = .busy ∧ y.dec.state = .complete ∧ (y.dec.status ≠ .ok → y.dec.result = none) ∧
        ∃ r, s.nextMove = .srcAnswer k r)) ∧
    (y.enc.state = x.enc.state ∨
      (x.enc.state ≠ .busy ∧ y.enc.state = .busy ∧ s.nextMove.offers k x .encoder) ∨
      (x.enc.state = .busy ∧ y.enc.state = .complete ∧ ∃ a, s.nextMove = .sinkAnswer k a))

/-- R12: STATUS changes only in a step in which its unit enters COMPLETE (a reset, which leaves it unspecified, apart);
the codes are 0 to 3; a decoder then never holds WRITE_FAILURE, an encoder only OK or WRITE_FAILURE. -/
def Obligations.StatusWrittenOnlyOnCompletion : Prop :=
  (∀ (s t : State) (k : Nat) (x y : Instance),
    step s = .next t → s.nextMove.isReset = false → s.instances[k]? = some x → t.instances[k]? = some y →
    (y.dec.status ≠ x.dec.status → x.dec.state = .busy ∧ y.dec.state = .complete) ∧
    (y.enc.status ≠ x.enc.status → x.enc.state = .busy ∧ y.enc.state = .complete) ∧
    (x.dec.state = .busy → y.dec.state = .complete → y.dec.status ≠ .writeFailure) ∧
    (x.enc.state = .busy → y.enc.state = .complete → y.enc.status = .ok ∨ y.enc.status = .writeFailure)) ∧
  Status.ok.code = 0 ∧ Status.readFailure.code = 1 ∧ Status.overlong.code = 2 ∧ Status.writeFailure.code = 3

/-- R74, R80 and R87: STATUS and RESULT stay as they are from COMPLETE until the unit accepts its next command, which then
stands at its port (presented, or held in a silence: log entries 11 and 12) and whose start step makes RESULT not valid
and leaves COMPLETE; only a reset does anything else. -/
def Obligations.ResultLifetime : Prop :=
  ∀ (s t : State) (k : Nat) (x y : Instance),
    step s = .next t → s.nextMove.isReset = false → s.instances[k]? = some x → t.instances[k]? = some y →
    (x.dec.state = .complete → y.dec = x.dec ∨
      (y.dec.state = .busy ∧ y.dec.result = none ∧ s.nextMove.offers k x .decoder)) ∧
    (x.enc.state = .complete → y.enc = x.enc ∨ (y.enc.state = .busy ∧ s.nextMove.offers k x .encoder))

/-- A step transfers at most one byte of each stream, whole, and only through a BUSY unit: a source loses its head or
nothing, a sink gains one byte at its end or nothing (R26, R34, R35). Moves in which the outside world itself changes a
stream, and reset, are apart. -/
def Obligations.OneByteAStep : Prop :=
  ∀ (s t : State) (k : Nat) (x y : Instance),
    step s = .next t → s.nextMove.isReset = false →
    (∀ j bytes, s.nextMove ≠ .feedSrc j bytes ∧ s.nextMove ≠ .connectSrc j bytes ∧ s.nextMove ≠ .connectSink j bytes) →
    s.instances[k]? = some x → t.instances[k]? = some y →
    (y.src = x.src ∨ (x.dec.state = .busy ∧ ∃ b, x.src = b :: y.src)) ∧
    (y.sink = x.sink ∨ (x.enc.state = .busy ∧ ∃ b, y.sink = x.sink ++ [b]))

/-- R24: a host read of RESULT when it is not valid, or of STATUS outside COMPLETE, is a fault; a valid read gives the
register on 64 bits and changes no register; STATE can be read at any time. What was read is kept in `reads`
(log entry 18). -/
def Obligations.HostReads : Prop :=
  ∀ (s : State) (k : Nat) (x : Instance) (rest : List Move), s.instances[k]? = some x →
    (s.env = .read k .decState :: rest →
      step s = .next { s with env := rest, reads := s.reads ++ [⟨k, .decState, x.dec.state.code.setWidth 64⟩] }) ∧
    (s.env = .read k .encState :: rest →
      step s = .next { s with env := rest, reads := s.reads ++ [⟨k, .encState, x.enc.state.code.setWidth 64⟩] }) ∧
    (s.env = .read k .decStatus :: rest → step s = if x.dec.state = .complete
      then .next { s with env := rest, reads := s.reads ++ [⟨k, .decStatus, x.dec.status.code.setWidth 64⟩] }
      else .fault .statusNotValid) ∧
    (s.env = .read k .encStatus :: rest → step s = if x.enc.state = .complete
      then .next { s with env := rest, reads := s.reads ++ [⟨k, .encStatus, x.enc.status.code.setWidth 64⟩] }
      else .fault .statusNotValid) ∧
    (s.env = .read k .decResult :: rest →
      (¬(x.dec.state = .complete ∧ x.dec.status = .ok) → step s = .fault .resultNotValid) ∧
      (∀ v, x.dec.state = .complete → x.dec.status = .ok → x.dec.result = some v →
        step s = .next { s with env := rest, reads := s.reads ++ [⟨k, .decResult, v⟩] }))

/-- The machine stops only at a read that is not valid (of STATUS outside COMPLETE; of RESULT where it holds no value or the
decoder is not in COMPLETE with OK, under the decoder's invariant always the latter), at a move for an instance that is
not there, or at another agent's change of a stream during its unit's operation; no command, no answer of a stream, no
reset and no read of STATE of an existing instance ever stops it (R11, R13, R24, R38; log entries 10 and 17). -/
def Obligations.StopsOnlyThere : Prop :=
  ∀ (s : State),
    (∀ r, step s = .fault r →
      (r = .noSuchInstance ∧ s.nextMove.wellFormed s.instances.length = false) ∨
      (∃ k x, s.instances[k]? = some x ∧
        ((r = .statusNotValid ∧ s.nextMove = .read k .decStatus ∧ x.dec.state ≠ .complete) ∨
         (r = .statusNotValid ∧ s.nextMove = .read k .encStatus ∧ x.enc.state ≠ .complete) ∨
         (r = .resultNotValid ∧ s.nextMove = .read k .decResult ∧
           (x.dec.result = none ∨ ¬(x.dec.state = .complete ∧ x.dec.status = .ok)) ∧
           (x.dec.Inv → ¬(x.dec.state = .complete ∧ x.dec.status = .ok)))))) ∧
    (∀ k x, s.instances[k]? = some x → (s.nextMove = .read k .decState ∨ s.nextMove = .read k .encState) →
      ∃ t, step s = .next t) ∧
    (∀ r, step s = .refused r → r = .streamInterference ∧
      ∃ k x bytes, s.instances[k]? = some x ∧
        ((s.nextMove = .connectSrc k bytes ∧ x.dec.state = .busy) ∨
         (s.nextMove = .connectSink k bytes ∧ x.enc.state = .busy))) ∧
    (s.nextMove.wellFormed s.instances.length = false → step s = .fault .noSuchInstance)

/-! ### Reset and the invariant -/

/-- The machine right after reset, with any number of instances: every unit IDLE, no request outstanding, RESULT not
valid (R23, R79, R81). That no command is held then is the model's choice, log entry 4, and that the machine of
`State.reset` has one instance is log entry 2. -/
def Obligations.ResetState : Prop :=
  (∀ (n k : Nat) (x : Instance), (State.resetWith n).instances[k]? = some x →
    x.dec.state = .idle ∧ x.enc.state = .idle ∧ x.dec.pending = false ∧ x.enc.pending = none ∧
    x.dec.result = none ∧ x.heldDec = none ∧ x.heldEnc = none) ∧
  (∀ n, (State.resetWith n).instances.length = n) ∧ State.reset.instances.length = 1

/-- R81 and R82: the reset signal, at any time, makes every unit of every instance IDLE with no request and no valid
RESULT; bytes transferred before stay transferred; a request outstanding either took effect in its stream or did not, both
are possible for every outstanding request, with or without one of the other unit, and a unit without a request leaves its
stream alone. The registers left unspecified are free values. -/
def Obligations.ResetSignal : Prop :=
  (∀ (s : State) (choices : List AbortChoice) (rest : List Move), s.env = .reset choices :: rest →
    ∃ t, step s = .next t ∧ t.instances.length = s.instances.length ∧ t.env = rest ∧ t.reads = s.reads ∧
      ∀ (k : Nat) (x : Instance), s.instances[k]? = some x → ∃ y, t.instances[k]? = some y ∧
        y.dec.state = .idle ∧ y.enc.state = .idle ∧ y.dec.pending = false ∧ y.enc.pending = none ∧ y.dec.result = none ∧
        (x.dec.pending = false → y.src = x.src) ∧ (x.dec.pending = true → y.src = x.src ∨ y.src = x.src.tail) ∧
        (x.enc.pending = none → y.sink = x.sink) ∧
        (∀ b, x.enc.pending = some b → y.sink = x.sink ∨ y.sink = x.sink ++ [b])) ∧
  (∀ (s : State) (took : Nat → AbortChoice), ∃ choices, ∀ rest, ∃ t,
    step { s with env := .reset choices :: rest } = .next t ∧
    ∀ (k : Nat) (x : Instance), s.instances[k]? = some x → ∃ y, t.instances[k]? = some y ∧
      (x.dec.pending = true → y.src = if (took k).srcTook then x.src.tail else x.src) ∧
      (∀ b, x.enc.pending = some b → y.sink = if (took k).sinkTook then x.sink ++ [b] else x.sink))

/-- The machine right after reset meets the invariant. -/
def Obligations.InvariantAtReset : Prop :=
  State.reset.Inv ∧ ∀ n, 0 < n → (State.resetWith n).Inv

/-- Every step keeps the invariant: of R13 (RESULT valid exactly in COMPLETE with OK), R14 and R18 (the unused register
bits), R17 (OFFSET and ACC while BUSY), R20 (requests only while BUSY), R60 (the byte on offer) and R70 (whose codes). -/
def Obligations.InvariantKeptByStep : Prop :=
  ∀ s t : State, s.Inv → step s = .next t → t.Inv

/-! ### The command notation -/

/-- R50: an encode line stands for its command exactly when its immediate is a decimal in the width's range, read as a
two's-complement pattern, or a pattern of at most W bits; a decode line stands for its command. VALUE above the operand
is 0 (log entry 21). -/
def Obligations.AssemblerLines : Prop :=
  (∀ z : Int, -(2 ^ 31 : Int) ≤ z → z < 2 ^ 31 →
    ∃ v : Word, assembleLine (.enc32 (.dec z)) = some (.enc32 v) ∧ (v.setWidth 32).toInt = z ∧ v.toNat < 2 ^ 32) ∧
  (∀ z : Int, -(2 ^ 63 : Int) ≤ z → z < 2 ^ 63 →
    ∃ v : Word, assembleLine (.enc64 (.dec z)) = some (.enc64 v) ∧ v.toInt = z) ∧
  (∀ n : Nat, n < 2 ^ 32 → assembleLine (.enc32 (.hex n)) = some (.enc32 (BitVec.ofNat 64 n))) ∧
  (∀ n : Nat, n < 2 ^ 64 → assembleLine (.enc64 (.hex n)) = some (.enc64 (BitVec.ofNat 64 n))) ∧
  (∀ z : Int, z < -(2 ^ 31 : Int) ∨ 2 ^ 31 ≤ z → assembleLine (.enc32 (.dec z)) = none) ∧
  (∀ z : Int, z < -(2 ^ 63 : Int) ∨ 2 ^ 63 ≤ z → assembleLine (.enc64 (.dec z)) = none) ∧
  (∀ n : Nat, 2 ^ 32 ≤ n → assembleLine (.enc32 (.hex n)) = none) ∧
  (∀ n : Nat, 2 ^ 64 ≤ n → assembleLine (.enc64 (.hex n)) = none) ∧
  assembleLine .dec32 = some (.dec32 0) ∧ assembleLine .dec64 = some (.dec64 0)
end

