-- ==== Sys2Proof/Laws/State.lean ====
section
/-! SUPPORT. One lemma per field per update: what each operation on a record leaves and writes, so that no later proof
unfolds a record update. -/

namespace Sys2Proof

@[simp] theorem Width.maxGroups_w32 : Width.w32.maxGroups = 5 := rfl
@[simp] theorem Width.maxGroups_w64 : Width.w64.maxGroups = 10 := rfl

end Sys2Proof

namespace Sys2Proof.Machine

/-! ### Ending an operation (R15) -/

@[simp] theorem Decoder.complete_state (d : Decoder) (st : Status) : (d.complete st).state = .complete := rfl
@[simp] theorem Decoder.complete_status (d : Decoder) (st : Status) : (d.complete st).status = st := rfl
@[simp] theorem Decoder.complete_w (d : Decoder) (st : Status) : (d.complete st).w = d.w := rfl
@[simp] theorem Decoder.complete_acc (d : Decoder) (st : Status) : (d.complete st).acc = d.acc := rfl
@[simp] theorem Decoder.complete_offset (d : Decoder) (st : Status) : (d.complete st).offset = d.offset := rfl
@[simp] theorem Decoder.complete_pending (d : Decoder) (st : Status) : (d.complete st).pending = d.pending := rfl
@[simp] theorem Decoder.complete_result (d : Decoder) (st : Status) :
    (d.complete st).result = if st = .ok then d.result else none := rfl

@[simp] theorem Encoder.complete_state (e : Encoder) (st : Status) : (e.complete st).state = .complete := rfl
@[simp] theorem Encoder.complete_status (e : Encoder) (st : Status) : (e.complete st).status = st := rfl
@[simp] theorem Encoder.complete_w (e : Encoder) (st : Status) : (e.complete st).w = e.w := rfl
@[simp] theorem Encoder.complete_rem (e : Encoder) (st : Status) : (e.complete st).rem = e.rem := rfl
@[simp] theorem Encoder.complete_pending (e : Encoder) (st : Status) : (e.complete st).pending = e.pending := rfl

/-! ### The start steps (R51, R59) -/

@[simp] theorem Decoder.start_state (d : Decoder) (w : Width) : (d.start w).state = .busy := rfl
@[simp] theorem Decoder.start_status (d : Decoder) (w : Width) : (d.start w).status = d.status := rfl
@[simp] theorem Decoder.start_result (d : Decoder) (w : Width) : (d.start w).result = none := rfl
@[simp] theorem Decoder.start_w (d : Decoder) (w : Width) : (d.start w).w = w := rfl
@[simp] theorem Decoder.start_acc (d : Decoder) (w : Width) : (d.start w).acc = 0#64 := rfl
@[simp] theorem Decoder.start_offset (d : Decoder) (w : Width) : (d.start w).offset = 0#7 := rfl
@[simp] theorem Decoder.start_pending (d : Decoder) (w : Width) : (d.start w).pending = d.pending := rfl

@[simp] theorem Encoder.start_state (e : Encoder) (w : Width) (v : Word) : (e.start w v).state = .busy := rfl
@[simp] theorem Encoder.start_status (e : Encoder) (w : Width) (v : Word) : (e.start w v).status = e.status := rfl
@[simp] theorem Encoder.start_w (e : Encoder) (w : Width) (v : Word) : (e.start w v).w = w := rfl
@[simp] theorem Encoder.start_rem (e : Encoder) (w : Width) (v : Word) : (e.start w v).rem = operand w v := rfl
@[simp] theorem Encoder.start_pending (e : Encoder) (w : Width) (v : Word) : (e.start w v).pending = e.pending := rfl

/-! ### Reset (R23, R81) -/

@[simp] theorem Decoder.afterReset_state (n k : Nat) : (Decoder.afterReset n k).state = .idle := rfl
@[simp] theorem Decoder.afterReset_result (n k : Nat) : (Decoder.afterReset n k).result = none := rfl
@[simp] theorem Decoder.afterReset_pending (n k : Nat) : (Decoder.afterReset n k).pending = false := rfl
@[simp] theorem Encoder.afterReset_state (n k : Nat) : (Encoder.afterReset n k).state = .idle := rfl
@[simp] theorem Encoder.afterReset_pending (n k : Nat) : (Encoder.afterReset n k).pending = none := rfl
@[simp] theorem Instance.afterReset_dec (x : Instance) (c : AbortChoice) (n k : Nat) :
    (x.afterReset c n k).dec = Decoder.afterReset n k := rfl
@[simp] theorem Instance.afterReset_enc (x : Instance) (c : AbortChoice) (n k : Nat) :
    (x.afterReset c n k).enc = Encoder.afterReset n k := rfl
@[simp] theorem Instance.afterReset_heldDec (x : Instance) (c : AbortChoice) (n k : Nat) :
    (x.afterReset c n k).heldDec = x.heldDec := rfl
@[simp] theorem Instance.afterReset_heldEnc (x : Instance) (c : AbortChoice) (n k : Nat) :
    (x.afterReset c n k).heldEnc = x.heldEnc := rfl

@[simp] theorem State.resetSignal_env (s : State) (cs : List AbortChoice) : (s.resetSignal cs).env = s.env := rfl
@[simp] theorem State.resetSignal_reads (s : State) (cs : List AbortChoice) : (s.resetSignal cs).reads = s.reads := rfl
@[simp] theorem State.resetSignal_sel (s : State) (cs : List AbortChoice) : (s.resetSignal cs).sel = s.sel := rfl
@[simp] theorem State.resetSignal_draws (s : State) (cs : List AbortChoice) :
    (s.resetSignal cs).draws = s.draws + 1 := rfl

/-! ### Waiting (R30) -/

@[simp] theorem State.wait_env (s : State) : s.wait.env = s.env := rfl
@[simp] theorem State.wait_reads (s : State) : s.wait.reads = s.reads := rfl
@[simp] theorem State.wait_sel (s : State) : s.wait.sel = s.sel := rfl
@[simp] theorem State.wait_draws (s : State) : s.wait.draws = s.draws := rfl
@[simp] theorem State.wait_instances (s : State) : s.wait.instances = s.instances.map Instance.wait := rfl

theorem Decoder.wait_busy (d : Decoder) (h : d.state = .busy) : d.wait = { d with pending := true } := by
  simp [Decoder.wait, h]

theorem Decoder.wait_ready (d : Decoder) (h : d.state ≠ .busy) : d.wait = d := by
  simp [Decoder.wait, h]

theorem Encoder.wait_busy (e : Encoder) (h : e.state = .busy) : e.wait = { e with pending := some e.offered } := by
  simp [Encoder.wait, h]

theorem Encoder.wait_ready (e : Encoder) (h : e.state ≠ .busy) : e.wait = e := by
  simp [Encoder.wait, h]

@[simp] theorem UnitState.ready_iff (st : UnitState) : st.ready = true ↔ st ≠ .busy := by
  simp [UnitState.ready]

@[simp] theorem UnitState.not_ready_iff (st : UnitState) : st.ready = false ↔ st = .busy := by
  simp [UnitState.ready]

end Sys2Proof.Machine
end

