-- ==== Sys2Proof/Laws/Ops.lean ====
section
/-! SUPPORT. One lemma per shared operation that says once everything it can do, for the provers to cite instead of
unfolding it; above all `perform_next`: what any move does to any instance. -/

namespace Sys2Proof.Machine

/-! ### Operations on the list of instances -/

theorem State.update_eq (s : State) (k : Nat) (f : Instance → Instance) (x : Instance) (h : s.instances[k]? = some x) :
    s.update k f = .next { s with instances := s.instances.set k (f x) } := by
  simp [State.update, h]

theorem State.update_fault (s : State) (k : Nat) (f : Instance → Instance) (h : s.instances[k]? = none) :
    s.update k f = .fault .noSuchInstance := by
  simp [State.update, h]

/-- What `update` can answer with a next state. -/
theorem State.update_next (s t : State) (k : Nat) (f : Instance → Instance) (h : s.update k f = .next t) :
    ∃ x, s.instances[k]? = some x ∧ t = { s with instances := s.instances.set k (f x) } := by
  unfold State.update at h
  split at h
  · rename_i x hx
    exact ⟨x, hx, by injection h with h; exact h.symm⟩
  · cases h

/-- What `connect` can answer with a next state. -/
theorem State.connect_next (s t : State) (k : Nat) (g : Instance → UnitState) (f : Instance → Instance)
    (h : s.connect k g f = .next t) :
    ∃ x, s.instances[k]? = some x ∧ g x ≠ .busy ∧ t = { s with instances := s.instances.set k (f x) } := by
  unfold State.connect at h
  split at h
  · cases h
  · rename_i x hx
    split at h
    · rename_i hr
      obtain ⟨x', hx', ht⟩ := State.update_next s t k f h
      obtain rfl : x = x' := Option.some.inj (hx.symm.trans hx')
      exact ⟨x, hx, (UnitState.ready_iff _).mp hr, ht⟩
    · cases h

/-- What a host read can answer with a next state: only `reads` grows. -/
theorem State.hostRead_next (s t : State) (k : Nat) (r : HostReg) (h : s.hostRead k r = .next t) :
    ∃ x v, s.instances[k]? = some x ∧ x.hostRead r = .ok v ∧
      t = { s with reads := s.reads ++ [{ port := k, reg := r, value := v }] } := by
  unfold State.hostRead at h
  split at h
  · cases h
  · rename_i x hx
    split at h
    · rename_i v hv
      exact ⟨x, v, hx, hv, by injection h with h; exact h.symm⟩
    · cases h

/-- Replacing one instance, seen from any index. -/
theorem getElem?_set_instance (l : List Instance) (k j : Nat) (x y : Instance) (h : l[k]? = some x) :
    (l.set k y)[j]? = if j = k then some y else l[j]? := by
  obtain ⟨hk, -⟩ := List.getElem?_eq_some_iff.mp h
  by_cases hj : j = k
  · subst hj; simp [hk]
  · simp [hj, Ne.symm hj]

/-- A reset, seen from any index. -/
theorem getElem?_resetAll (n : Nat) (l : List Instance) :
    ∀ (k : Nat) (cs : List AbortChoice) (j : Nat), (resetAll n k cs l)[j]? =
      l[j]?.map (fun x => x.afterReset ((cs[j]?).getD { srcTook := false, sinkTook := false }) n (k + j)) := by
  induction l with
  | nil => intro k cs j; simp [resetAll]
  | cons x xs ih =>
    intro k cs j
    cases j with
    | zero => cases cs <;> simp [resetAll]
    | succ j => cases cs <;> simp [resetAll, ih, Nat.add_assoc, Nat.add_comm 1 j]

@[simp] theorem length_resetAll (n : Nat) (l : List Instance) :
    ∀ (k : Nat) (cs : List AbortChoice), (resetAll n k cs l).length = l.length := by
  induction l with
  | nil => intro k cs; rfl
  | cons x xs ih => intro k cs; simp [resetAll, ih]

/-! ### Every move, seen from one instance -/

/-- Presenting a command, as one function of the instance. -/
def Instance.present (x : Instance) : Instr → Instance
  | .enc32 v => x.presentEncode .w32 v
  | .enc64 v => x.presentEncode .w64 v
  | .dec32 v => x.presentDecode .w32 v
  | .dec64 v => x.presentDecode .w64 v

/-- What a move does to instance `j`, where the machine answers a next state. -/
def Move.effect (m : Move) (draw j : Nat) (x : Instance) : Instance :=
  match m with
  | .wait => x.wait
  | .command k op value => if j = k then x.present (decodeCommand op value) else x
  | .withdraw k u => if j = k then x.withdraw u else x
  | .srcAnswer k r => if j = k then x.srcAnswer r else x
  | .sinkAnswer k a => if j = k then x.sinkAnswer a else x
  | .feedSrc k bytes => if j = k then { x with src := x.src ++ bytes } else x
  | .connectSrc k bytes => if j = k then { x with src := bytes } else x
  | .connectSink k bytes => if j = k then { x with sink := bytes } else x
  | .read _ _ => x
  | .reset choices => x.afterReset ((choices[j]?).getD { srcTook := false, sinkTook := false }) draw j

theorem exec_eq_update (i : Instr) (s : State) : exec i s = s.update s.sel (fun x => x.present i) := by
  cases i <;> rfl

theorem exec_of_instance (i : Instr) (s : State) (x : Instance) (h : s.instances[s.sel]? = some x) :
    exec i s = .next { s with instances := s.instances.set s.sel (x.present i) } := by
  rw [exec_eq_update, State.update_eq _ _ _ _ h]

theorem exec_next (i : Instr) (s t : State) (h : exec i s = .next t) :
    ∃ x, s.instances[s.sel]? = some x ∧ t = { s with instances := s.instances.set s.sel (x.present i) } :=
  State.update_next s t s.sel _ (by rw [← exec_eq_update]; exact h)

/-- What a move that answers a next state does to every instance; no instance comes or goes. -/
theorem perform_next (m : Move) (s t : State) (h : perform m s = .next t) :
    ∀ j, t.instances[j]? = s.instances[j]?.map (m.effect s.draws j) := by
  have upd : ∀ (s : State) (k : Nat) (f : Instance → Instance) (t : State), s.update k f = .next t →
      ∀ j, t.instances[j]? = s.instances[j]?.map (fun x => if j = k then f x else x) := by
    intro s k f t h j
    obtain ⟨x, hx, rfl⟩ := State.update_next s t k f h
    simp only [getElem?_set_instance _ _ _ _ _ hx]
    by_cases hj : j = k
    · subst hj; simp [hx]
    · simp [hj]
  cases m with
  | wait =>
    intro j; injection h with h; subst h
    rw [State.wait_instances, List.getElem?_map]; rfl
  | command k op value => exact upd { s with sel := k } k _ t ((exec_eq_update _ _).symm.trans h)
  | withdraw k u => exact upd _ k _ t h
  | srcAnswer k r => exact upd _ k _ t h
  | sinkAnswer k a => exact upd _ k _ t h
  | feedSrc k bytes => exact upd _ k _ t h
  | connectSrc k bytes =>
    obtain ⟨x, hx, -, rfl⟩ := State.connect_next _ _ _ _ _ h
    exact upd _ k _ _ (State.update_eq s k _ x hx)
  | connectSink k bytes =>
    obtain ⟨x, hx, -, rfl⟩ := State.connect_next _ _ _ _ _ h
    exact upd _ k _ _ (State.update_eq s k _ x hx)
  | read k r =>
    intro j
    obtain ⟨x, v, -, -, rfl⟩ := State.hostRead_next _ _ _ _ h
    cases hj : s.instances[j]? <;> simp [Move.effect]
  | reset choices =>
    intro j; injection h with h; subst h
    simp only [State.resetSignal, getElem?_resetAll, Nat.zero_add]; rfl

/-- A step is the performance of the next move. -/
theorem step_eq (s : State) : step s = perform (s.env.headD .wait) { s with env := s.env.tail } := by
  obtain ⟨is, sel, env, reads, draws⟩ := s
  cases env <;> rfl

theorem step_cons (s : State) (m : Move) (rest : List Move) (h : s.env = m :: rest) :
    step s = perform m { s with env := rest } := by
  rw [step_eq, h]; rfl

/-- What a step that answers a next state does to every instance. -/
theorem step_next (s t : State) (h : step s = .next t) :
    ∀ j, t.instances[j]? = s.instances[j]?.map ((s.env.headD .wait).effect s.draws j) :=
  perform_next _ { s with env := s.env.tail } _ ((step_eq s).symm.trans h)

/-- A move leaves the rest of the outside world to come. -/
theorem perform_env (m : Move) (s t : State) (h : perform m s = .next t) : t.env = s.env := by
  have upd : ∀ (s : State) (k : Nat) (f : Instance → Instance) (t : State), s.update k f = .next t → t.env = s.env := by
    intro s k f t h
    obtain ⟨x, -, rfl⟩ := State.update_next s t k f h
    rfl
  cases m with
  | wait => injection h with h; subst h; rfl
  | command k op value => exact upd { s with sel := k } k _ t ((exec_eq_update _ _).symm.trans h)
  | withdraw k u => exact upd _ k _ t h
  | srcAnswer k r => exact upd _ k _ t h
  | sinkAnswer k a => exact upd _ k _ t h
  | feedSrc k bytes => exact upd _ k _ t h
  | connectSrc k bytes => obtain ⟨x, -, -, rfl⟩ := State.connect_next _ _ _ _ _ h; rfl
  | connectSink k bytes => obtain ⟨x, -, -, rfl⟩ := State.connect_next _ _ _ _ _ h; rfl
  | read k r => obtain ⟨x, v, -, -, rfl⟩ := State.hostRead_next _ _ _ _ h; rfl
  | reset choices => injection h with h; subst h; rfl

/-! ### Presenting a command (R22) -/

theorem Instance.presentDecode_ready (x : Instance) (w : Width) (v : Word) (h : x.dec.state ≠ .busy) :
    x.presentDecode w v = { x with dec := x.dec.start w, heldDec := none } := by
  simp [Instance.presentDecode, h]

theorem Instance.presentDecode_busy (x : Instance) (w : Width) (v : Word) (h : x.dec.state = .busy) :
    x.presentDecode w v = { x with heldDec := some { w := w, value := v } } := by
  simp [Instance.presentDecode, h]

theorem Instance.presentEncode_ready (x : Instance) (w : Width) (v : Word) (h : x.enc.state ≠ .busy) :
    x.presentEncode w v = { x with enc := x.enc.start w v, heldEnc := none } := by
  simp [Instance.presentEncode, h]

theorem Instance.presentEncode_busy (x : Instance) (w : Width) (v : Word) (h : x.enc.state = .busy) :
    x.presentEncode w v = { x with heldEnc := some { w := w, value := v } } := by
  simp [Instance.presentEncode, h]

/-! ### What a decoder and an encoder can do in one move -/

/-- The decoder of an instance after a wait: unchanged, waiting for its source, or started on the held command. -/
theorem Instance.wait_dec (x : Instance) : x.wait.dec =
    match x.heldDec with
    | some c => if x.dec.state = .busy then { x.dec with pending := true } else x.dec.start c.w
    | none => x.dec.wait := by
  cases hs : x.dec.state <;> cases hh : x.heldDec <;> cases he : x.enc.state <;> cases hf : x.heldEnc <;>
    simp [Instance.wait, Instance.waitDecoder, Instance.waitEncoder, Instance.presentDecode, Instance.presentEncode,
      UnitState.ready, Decoder.wait, Encoder.wait, hs, hh, he, hf]

/-- The encoder of an instance after a wait. -/
theorem Instance.wait_enc (x : Instance) : x.wait.enc =
    match x.heldEnc with
    | some c => if x.enc.state = .busy then { x.enc with pending := some x.enc.offered } else x.enc.start c.w c.value
    | none => x.enc.wait := by
  cases hs : x.dec.state <;> cases hh : x.heldDec <;> cases he : x.enc.state <;> cases hf : x.heldEnc <;>
    simp [Instance.wait, Instance.waitDecoder, Instance.waitEncoder, Instance.presentDecode, Instance.presentEncode,
      UnitState.ready, Decoder.wait, Encoder.wait, hs, hh, he, hf]

/-- A wait moves no byte. -/
@[simp] theorem Instance.wait_src (x : Instance) : x.wait.src = x.src := by
  cases hs : x.dec.state <;> cases hh : x.heldDec <;> cases he : x.enc.state <;> cases hf : x.heldEnc <;>
    simp [Instance.wait, Instance.waitDecoder, Instance.waitEncoder, Instance.presentDecode, Instance.presentEncode,
      UnitState.ready, hs, hh, he, hf]

@[simp] theorem Instance.wait_sink (x : Instance) : x.wait.sink = x.sink := by
  cases hs : x.dec.state <;> cases hh : x.heldDec <;> cases he : x.enc.state <;> cases hf : x.heldEnc <;>
    simp [Instance.wait, Instance.waitDecoder, Instance.waitEncoder, Instance.presentDecode, Instance.presentEncode,
      UnitState.ready, hs, hh, he, hf]

/-- The decode step changes no byte but W, and always clears the request. -/
@[simp] theorem Decoder.take_pending (d : Decoder) (a : SrcAnswer) : (d.take a).pending = false := by
  cases a with
  | fail => rfl
  | byte b => simp only [Decoder.take, Decoder.takeByte]; split <;> [rfl; split <;> rfl]

@[simp] theorem Decoder.take_w (d : Decoder) (a : SrcAnswer) : (d.take a).w = d.w := by
  cases a with
  | fail => rfl
  | byte b => simp only [Decoder.take, Decoder.takeByte]; split <;> [rfl; split <;> rfl]

@[simp] theorem Encoder.take_pending (e : Encoder) (a : SinkAnswer) : (e.take a).pending = none := by
  cases a with
  | fail => rfl
  | ok => simp only [Encoder.take]; split <;> rfl

@[simp] theorem Encoder.take_w (e : Encoder) (a : SinkAnswer) : (e.take a).w = e.w := by
  cases a with
  | fail => rfl
  | ok => simp only [Encoder.take]; split <;> rfl

end Sys2Proof.Machine
end

