-- ==== Sys2Proof/Laws/PerInstr.lean ====
section
/-! SUPPORT. Statements about every command as syntax, one lemma per constructor. -/

namespace Sys2Proof.Laws.CommandFits

/-- The command word of a command has OP in bits 1:0 and VALUE above it and nothing beyond (30_encoding.md R47; the
layout is log entry 1), and it decodes to a command of the same OP and VALUE, which is well formed (R49). -/
def Statement (i : Instr) : Prop :=
  encodeWord i < 2 ^ commandBits ∧ wordOp (encodeWord i) = encodeOp i ∧ wordValue (encodeWord i) = encodeValue i ∧
    i.wellFormed = true

theorem wordOp_eq (v : Word) (op : BitVec 2) : wordOp (v.toNat * 4 + op.toNat) = op := by
  apply BitVec.eq_of_toNat_eq
  have := op.isLt
  simp only [wordOp, BitVec.toNat_ofNat]
  omega

theorem wordValue_eq (v : Word) (op : BitVec 2) : wordValue (v.toNat * 4 + op.toNat) = v := by
  apply BitVec.eq_of_toNat_eq
  have := op.isLt
  have := v.isLt
  simp only [wordValue, BitVec.toNat_ofNat]
  omega

theorem word_lt (v : Word) (op : BitVec 2) : v.toNat * 4 + op.toNat < 2 ^ commandBits := by
  have := op.isLt
  have := v.isLt
  simp only [commandBits]
  omega

theorem enc32 (value : Word) : Statement (.enc32 value) :=
  ⟨word_lt value _, wordOp_eq value _, wordValue_eq value _, rfl⟩

theorem enc64 (value : Word) : Statement (.enc64 value) :=
  ⟨word_lt value _, wordOp_eq value _, wordValue_eq value _, rfl⟩

theorem dec32 (value : Word) : Statement (.dec32 value) :=
  ⟨word_lt value _, wordOp_eq value _, wordValue_eq value _, rfl⟩

theorem dec64 (value : Word) : Statement (.dec64 value) :=
  ⟨word_lt value _, wordOp_eq value _, wordValue_eq value _, rfl⟩

end Sys2Proof.Laws.CommandFits
end

