-- ==== Sys2Proof/Laws/Units.lean ====
section
/-! SUPPORT. What one decode or encode step can do, and what a move can do to a unit, for the provers to cite. -/

namespace Sys2Proof.Machine

/-- The test of the encode step is `remaining < 128`. -/
theorem fitsSeven_iff {W : Nat} (u : BitVec W) : fitsSeven u = true ↔ u.toNat < 128 := by
  have key : u &&& ~~~ (zext W 0x7F#8) = 0 ↔ u >>> 7 = 0 := by
    constructor
    · intro h
      apply BitVec.eq_of_getLsbD_eq
      intro i hi
      have := congrArg (fun v => v.getLsbD (7 + i)) h
      simp [zext, BitVec.getLsbD_setWidth] at this ⊢
      have e : (0x7F#8).getLsbD (7+i) = false := by
        rcases i with _ | i
        · decide
        · exact BitVec.getLsbD_of_ge _ _ (by omega)
      have := this; simp [e] at this
      by_cases h7 : 7 + i < W
      · cases hh : u.getLsbD (7+i)
        · rfl
        · exact absurd h7 (by simpa using this hh)
      · exact BitVec.getLsbD_of_ge _ _ (by omega)
    · intro h
      apply BitVec.eq_of_getLsbD_eq
      intro i hi
      simp [zext, hi]
      intro hu
      by_contra hc
      by_cases h7 : i < 7
      · revert hc; interval_cases i <;> decide
      · have := congrArg (fun v => v.getLsbD (i - 7)) h
        rw [BitVec.getLsbD_ushiftRight, show 7 + (i - 7) = i by omega, BitVec.getLsbD_eq_getElem hi, hu] at this
        simp at this
  unfold fitsSeven
  rw [beq_iff_eq, key]
  constructor
  · intro h
    have := congrArg BitVec.toNat h
    simp [Nat.shiftRight_eq_div_pow] at this
    exact this
  · intro h
    apply BitVec.eq_of_toNat_eq
    simp [Nat.shiftRight_eq_div_pow]; exact h

/-- The logical right shift as a number. -/
theorem lsr_toNat {W : Nat} (u : BitVec W) (n : Nat) : (lsr u n).toNat = u.toNat / 2^n := by
  simp [lsr, Nat.shiftRight_eq_div_pow]

/-- A W-bit pattern put into its 64-bit register and read back. -/
theorem zext_zext (w : Width) (a : BitVec w.bits) : zext w.bits (zext 64 a) = a := by
  cases w
  · apply BitVec.eq_of_toNat_eq; have := a.isLt; simp [zext, Width.bits] at *
  · simp [zext]

/-- A byte with C = 1 at a group index before the last (R52): the operation goes on. -/
theorem Decoder.takeByte_more (d : Decoder) (b : Byte) (j : Nat) (hb : b.getLsbD 7 = true)
    (hj : j + 1 < d.w.maxGroups) (ho : d.offset.toNat = 7 * j) :
    d.takeByte b = { d with acc := zext 64 (d.accumulate b), offset := d.offset + 7#7, pending := false } ∧
      (d.offset + 7#7).toNat = 7 * (j+1) := by
  have h2 : (d.offset + 7#7).toNat = 7 * (j+1) := by
    rw [BitVec.toNat_add, ho]
    have : j + 1 < 10 := by cases hw : d.w <;> simp [hw] at hj <;> omega
    simp; omega
  refine ⟨?_, h2⟩
  simp only [Decoder.takeByte, continues, hb]
  have : offsetFull d.w (d.offset + 7#7) = false := by
    simp only [offsetFull, h2, decide_eq_false_iff_not]
    cases hw : d.w <;> simp [hw, Width.bits] at hj ⊢ <;> omega
  simp [this]

/-- A byte with C = 1 at the last group index (R52 step 5). -/
theorem Decoder.takeByte_over (d : Decoder) (b : Byte) (j : Nat) (hb : b.getLsbD 7 = true)
    (hj : j + 1 = d.w.maxGroups) (ho : d.offset.toNat = 7 * j) :
    d.takeByte b = { d with
        acc := zext 64 (d.accumulate b), offset := d.offset + 7#7, pending := false
        state := .complete, status := .overlong, result := none } ∧
      (d.offset + 7#7).toNat = 7 * (j+1) := by
  have h2 : (d.offset + 7#7).toNat = 7 * (j+1) := by
    rw [BitVec.toNat_add, ho]
    have : j + 1 ≤ 10 := by cases hw : d.w <;> simp [hw] at hj <;> omega
    simp; omega
  refine ⟨?_, h2⟩
  simp only [Decoder.takeByte, continues, hb]
  have : offsetFull d.w (d.offset + 7#7) = true := by
    simp only [offsetFull, h2, decide_eq_true_eq]
    cases hw : d.w <;> simp [hw, Width.bits] at hj ⊢ <;> omega
  simp [this, Decoder.complete]

/-- A byte with C = 0 (R52 step 4). -/
theorem Decoder.takeByte_final (d : Decoder) (b : Byte) (hb : b.getLsbD 7 = false) :
    d.takeByte b = { d with
      acc := zext 64 (d.accumulate b), offset := d.offset + 7#7, pending := false
      state := .complete, status := .ok, result := some (sext 64 (d.accumulate b)) } := by
  simp only [Decoder.takeByte, continues, hb]
  simp [Decoder.complete]

/-- What a move other than reset can do to a decoder, and which move: nothing, show its request, start it on a command
that stands at its port, or one decode step on an answer of its source. -/
theorem Move.effect_dec (m : Move) (n j : Nat) (x : Instance) (hm : m.isReset = false) :
    (m.effect n j x).dec = x.dec ∨ (x.dec.state = .busy ∧ (m.effect n j x).dec = { x.dec with pending := true }) ∨
    (x.dec.state ≠ .busy ∧ m.offers j x .decoder ∧ ∃ w, (m.effect n j x).dec = x.dec.start w) ∨
    (x.dec.state = .busy ∧ (∃ r, m = .srcAnswer j r) ∧ ∃ a, (m.effect n j x).dec = x.dec.take a) := by
  cases m with
  | wait =>
    simp only [Move.effect, Instance.wait_dec]
    cases hh : x.heldDec with
    | none => simp only [Decoder.wait]; split <;> simp [*]
    | some c =>
      by_cases h : x.dec.state = .busy
      · simp [h]
      · exact .inr (.inr (.inl ⟨h, .inr ⟨rfl, by simp [hh]⟩, c.w, by simp [h]⟩))
  | command k op v =>
    simp only [Move.effect]; split
    · rename_i hk; subst hk
      cases ho : opIsDecode op
      · left
        cases hw : opWidth op <;>
          simp only [decodeCommand, ho, hw, Instance.present, Instance.presentEncode] <;> split <;> rfl
      · by_cases hb : x.dec.state = .busy
        · left
          cases hw : opWidth op <;>
            simp only [decodeCommand, ho, hw, Instance.present, Instance.presentDecode_busy _ _ _ hb]
        · refine .inr (.inr (.inl ⟨hb, .inl ⟨op, v, rfl, ho⟩, opWidth op, ?_⟩))
          cases hw : opWidth op <;>
            simp only [decodeCommand, ho, hw, Instance.present, Instance.presentDecode_ready _ _ _ hb]
    · exact .inl rfl
  | withdraw k u => simp only [Move.effect]; split <;> cases u <;> simp [Instance.withdraw]
  | srcAnswer k r =>
    simp only [Move.effect]; split
    · rename_i hk; subst hk
      simp only [Instance.srcAnswer]; split
      · exact .inr (.inr (.inr ⟨‹_›, ⟨r, rfl⟩, _, rfl⟩))
      · exact .inl rfl
    · exact .inl rfl
  | sinkAnswer k a => simp only [Move.effect]; split <;> [(simp only [Instance.sinkAnswer]; split <;> simp); simp]
  | feedSrc k b => simp only [Move.effect]; split <;> simp
  | connectSrc k b => simp only [Move.effect]; split <;> simp
  | connectSink k b => simp only [Move.effect]; split <;> simp
  | read k r => simp [Move.effect]
  | reset cs => simp [Move.isReset] at hm

/-- What a move other than reset can do to an encoder, and which move: nothing, put its byte on offer, start it on a
command that stands at its port, or one encode step on an answer of its sink. -/
theorem Move.effect_enc (m : Move) (n j : Nat) (x : Instance) (hm : m.isReset = false) :
    (m.effect n j x).enc = x.enc ∨
    (x.enc.state = .busy ∧ (m.effect n j x).enc = { x.enc with pending := some x.enc.offered }) ∨
    (x.enc.state ≠ .busy ∧ m.offers j x .encoder ∧ ∃ w v, (m.effect n j x).enc = x.enc.start w v) ∨
    (x.enc.state = .busy ∧ (∃ r, m = .sinkAnswer j r) ∧ ∃ a, (m.effect n j x).enc = x.enc.take a) := by
  cases m with
  | wait =>
    simp only [Move.effect, Instance.wait_enc]
    cases hh : x.heldEnc with
    | none => simp only [Encoder.wait]; split <;> simp [*]
    | some c =>
      by_cases h : x.enc.state = .busy
      · simp [h]
      · exact .inr (.inr (.inl ⟨h, .inr ⟨rfl, by simp [hh]⟩, c.w, c.value, by simp [h]⟩))
  | command k op v =>
    simp only [Move.effect]; split
    · rename_i hk; subst hk
      cases ho : opIsDecode op
      · by_cases hb : x.enc.state = .busy
        · left
          cases hw : opWidth op <;>
            simp only [decodeCommand, ho, hw, Instance.present, Instance.presentEncode_busy _ _ _ hb]
        · refine .inr (.inr (.inl ⟨hb, .inl ⟨op, v, rfl, ho⟩, opWidth op, v, ?_⟩))
          cases hw : opWidth op <;>
            simp only [decodeCommand, ho, hw, Instance.present, Instance.presentEncode_ready _ _ _ hb]
      · left
        cases hw : opWidth op <;>
          simp only [decodeCommand, ho, hw, Instance.present, Instance.presentDecode] <;> split <;> rfl
    · exact .inl rfl
  | withdraw k u => simp only [Move.effect]; split <;> cases u <;> simp [Instance.withdraw]
  | sinkAnswer k r =>
    simp only [Move.effect]; split
    · rename_i hk; subst hk
      simp only [Instance.sinkAnswer]; split
      · exact .inr (.inr (.inr ⟨‹_›, ⟨r, rfl⟩, _, rfl⟩))
      · exact .inl rfl
    · exact .inl rfl
  | srcAnswer k a => simp only [Move.effect]; split <;> [(simp only [Instance.srcAnswer]; split <;> simp); simp]
  | feedSrc k b => simp only [Move.effect]; split <;> simp
  | connectSrc k b => simp only [Move.effect]; split <;> simp
  | connectSink k b => simp only [Move.effect]; split <;> simp
  | read k r => simp [Move.effect]
  | reset cs => simp [Move.isReset] at hm

end Sys2Proof.Machine
end

