-- ==== Sys2Proof/Laws/Run.lean ====
section
/-! SUPPORT. Runs of several steps: how they compose, and what the script of one operation, with silences anywhere, does to
its instance: the fold of the answers, up to whether a request already shows. -/

namespace Sys2Proof.Machine

theorem decodeCommand_decodeOp (w : Width) (v : Word) : decodeCommand (decodeOp w) v =
    match w with | .w32 => .dec32 v | .w64 => .dec64 v := by
  cases w <;> simp [decodeOp, decodeCommand, opIsDecode, opWidth]

theorem decodeCommand_encodeOp (w : Width) (v : Word) : decodeCommand (encodeOpOf w) v =
    match w with | .w32 => .enc32 v | .w64 => .enc64 v := by
  cases w <;> simp [encodeOpOf, decodeCommand, opIsDecode, opWidth]

/-- A run in two parts. -/
theorem run_add (m n : Nat) (s t : State) (h : run m s = .next t) : run (m + n) s = run n t := by
  induction m generalizing s with
  | zero => injection h with h; subst h; simp
  | succ m ih =>
    rw [Nat.succ_add]
    simp only [run] at h ⊢
    cases hs : step s with
    | next u => rw [hs] at h; exact ih u h
    | fault r => rw [hs] at h; cases h
    | refused r => rw [hs] at h; cases h

/-- A run that begins with one known step. -/
theorem run_succ (n : Nat) (s t : State) (h : step s = .next t) : run (n+1) s = run n t := by
  simp [run, h]

theorem Instance.present_dec (x : Instance) (w : Width) (v : Word) (hr : x.dec.state ≠ .busy) :
    x.present (decodeCommand (decodeOp w) v) = { x with dec := x.dec.start w, heldDec := none } := by
  rw [decodeCommand_decodeOp]; cases w <;> exact Instance.presentDecode_ready x _ v hr

theorem Instance.present_enc (x : Instance) (w : Width) (v : Word) (hr : x.enc.state ≠ .busy) :
    x.present (decodeCommand (encodeOpOf w) v) = { x with enc := x.enc.start w v, heldEnc := none } := by
  rw [decodeCommand_encodeOp]; cases w <;> exact Instance.presentEncode_ready x _ v hr

/-- The step that starts a decode operation, seen at its instance. -/
theorem step_command_dec (s : State) (k : Nat) (w : Width) (v : Word) (rest : List Move) (x : Instance)
    (hx : s.instances[k]? = some x) (hr : x.dec.state ≠ .busy) (he : s.env = .command k (decodeOp w) v :: rest) :
    ∃ t, step s = .next t ∧ t.env = rest ∧ t.instances[k]? = some { x with dec := x.dec.start w, heldDec := none } := by
  rw [step_cons s _ _ he]
  simp only [perform]
  rw [exec_of_instance _ _ x (by simpa using hx)]
  refine ⟨_, rfl, rfl, ?_⟩
  simp only [getElem?_set_instance _ _ _ _ _ hx, if_true]; rw [Instance.present_dec x w v hr]

/-- The step that starts an encode operation, seen at its instance. -/
theorem step_command_enc (s : State) (k : Nat) (w : Width) (v : Word) (rest : List Move) (x : Instance)
    (hx : s.instances[k]? = some x) (hr : x.enc.state ≠ .busy) (he : s.env = .command k (encodeOpOf w) v :: rest) :
    ∃ t, step s = .next t ∧ t.env = rest ∧ t.instances[k]? = some { x with enc := x.enc.start w v, heldEnc := none } := by
  rw [step_cons s _ _ he]
  simp only [perform]
  rw [exec_of_instance _ _ x (by simpa using hx)]
  refine ⟨_, rfl, rfl, ?_⟩
  simp only [getElem?_set_instance _ _ _ _ _ hx, if_true]; rw [Instance.present_enc x w v hr]

/-- The decoder and the source of `x` are those of `y`, but for whether the request shows. -/
def DecSim (x y : Instance) : Prop := x.src = y.src ∧ x.dec = { y.dec with pending := x.dec.pending }

/-- The encoder and the sink of `x` are those of `y`, but that the byte `y` will offer may already be on offer. -/
def EncSim (x y : Instance) : Prop :=
  x.sink = y.sink ∧ x.enc = { y.enc with pending := x.enc.pending } ∧ y.enc.pending = none ∧
    ∀ b, x.enc.pending = some b → b = y.enc.formed

theorem DecSim.refl (x : Instance) : DecSim x x := ⟨rfl, rfl⟩

theorem Decoder.take_ignores_pending (d : Decoder) (p : Bool) (a : SrcAnswer) :
    ({ d with pending := p } : Decoder).take a = d.take a := by
  cases a <;> rfl

theorem Encoder.take_ignores_pending (e : Encoder) (p : Option Byte) (a : SinkAnswer) :
    ({ e with pending := p } : Encoder).take a = e.take a := by
  cases a <;> rfl

/-- The relation survives an answer of the source. -/
theorem DecSim.answer {x y : Instance} (h : DecSim x y) (r : SrcReply) : DecSim (x.srcAnswer r) (y.srcAnswer r) := by
  obtain ⟨h1, h2⟩ := h
  have hs : x.dec.state = y.dec.state := by rw [h2]
  by_cases hb : y.dec.state = .busy
  · have e : ∀ a, x.dec.take a = y.dec.take a := by
      intro a; rw [h2]; exact Decoder.take_ignores_pending _ _ _
    simp only [DecSim, Instance.srcAnswer, hs, hb, if_true, h1, e, true_and]
  · have hb' : x.dec.state ≠ .busy := by rwa [hs]
    simpa only [DecSim, Instance.srcAnswer, hb, hb', if_false] using ⟨h1, h2⟩

/-- The relation survives a silence. -/
theorem DecSim.wait {x y : Instance} (hd : x.heldDec = none) (h : DecSim x y) : DecSim x.wait y := by
  obtain ⟨h1, h2⟩ := h
  refine ⟨by rw [Instance.wait_src, h1], ?_⟩
  rw [Instance.wait_dec, hd]
  by_cases hb : x.dec.state = .busy
  · simp only [Decoder.wait_busy _ hb]
    rw [h2]
  · simp only [Decoder.wait_ready _ hb]
    exact h2

/-- The relation survives an answer of the sink. -/
theorem EncSim.answer {x y : Instance} (h : EncSim x y) (a : SinkAnswer) : EncSim (x.sinkAnswer a) (y.sinkAnswer a) := by
  obtain ⟨h1, h2, h3, h4⟩ := h
  have hs : x.enc.state = y.enc.state := by rw [h2]
  by_cases hb : y.enc.state = .busy
  · have e : x.enc.take a = y.enc.take a := by rw [h2]; exact Encoder.take_ignores_pending _ _ _
    have o : x.enc.offered = y.enc.offered := by
      simp only [Encoder.offered, h3, Option.getD_none]
      have hf : x.enc.formed = y.enc.formed := by rw [h2]; rfl
      cases hp : x.enc.pending with
      | none => exact hf
      | some b => exact h4 b hp
    have p := Encoder.take_pending y.enc a
    simp only [EncSim, Instance.sinkAnswer, hs, hb, if_true, h1, e, o, true_and]
    generalize y.enc.take a = q at p
    exact ⟨p, by rw [p]; intro b h; cases h⟩
  · have hb' : x.enc.state ≠ .busy := by rwa [hs]
    simpa only [EncSim, Instance.sinkAnswer, hb, hb', if_false] using ⟨h1, h2, h3, h4⟩

/-- The relation survives a silence. -/
theorem EncSim.wait {x y : Instance} (hd : x.heldEnc = none) (h : EncSim x y) : EncSim x.wait y := by
  obtain ⟨h1, h2, h3, h4⟩ := h
  have hw : x.wait.enc = x.enc.wait := by rw [Instance.wait_enc, hd]
  refine ⟨by rw [Instance.wait_sink, h1], ?_, h3, ?_⟩
  · rw [hw]
    by_cases hb : x.enc.state = .busy
    · simp only [Encoder.wait_busy _ hb]
      rw [h2]
    · simp only [Encoder.wait_ready _ hb]
      exact h2
  · rw [hw]
    by_cases hb : x.enc.state = .busy
    · intro b h
      simp only [Encoder.wait_busy _ hb, Option.some.injEq] at h
      subst h
      have hf : x.enc.formed = y.enc.formed := by rw [h2]; rfl
      unfold Encoder.offered
      cases hp : x.enc.pending with
      | none => exact hf
      | some b => exact h4 b hp
    · simp only [Encoder.wait_ready _ hb]
      exact h4

/-- With no command held, a silence holds none either. -/
theorem Instance.wait_heldDec (x : Instance) (h : x.heldDec = none) : x.wait.heldDec = none := by
  cases hs : x.dec.state <;> cases he : x.enc.state <;> cases hf : x.heldEnc <;>
    simp [Instance.wait, Instance.waitDecoder, Instance.waitEncoder, Instance.presentEncode, UnitState.ready, hs, he, hf, h]

theorem Instance.wait_heldEnc (x : Instance) (h : x.heldEnc = none) : x.wait.heldEnc = none := by
  cases hs : x.dec.state <;> cases he : x.enc.state <;> cases hf : x.heldDec <;>
    simp [Instance.wait, Instance.waitDecoder, Instance.waitEncoder, Instance.presentDecode, UnitState.ready, hs, he, hf, h]

/-- A step in which the outside world is silent. -/
theorem step_silent (s : State) (rest : List Move) (k : Nat) (x : Instance) (h : s.env = .wait :: rest)
    (hx : s.instances[k]? = some x) : ∃ t, step s = .next t ∧ t.env = rest ∧ t.instances[k]? = some x.wait :=
  ⟨_, step_cons s _ _ h, rfl, by simp [State.wait_instances, List.getElem?_map, hx]⟩

theorem spoken_wait (env : List Move) : spoken (.wait :: env) = spoken env := rfl

theorem spoken_cons (m : Move) (env : List Move) (h : m.isWait = false) : spoken (m :: env) = m :: spoken env := by
  simp [spoken, h]

/-- The first move of an outside world that has something to say is a silence or the first thing it says. -/
theorem spoken_split (m m' : Move) (env l : List Move) (h : spoken (m :: env) = m' :: l) :
    (m = .wait ∧ spoken env = m' :: l) ∨ (m = m' ∧ spoken env = l) := by
  by_cases hm : m.isWait = true
  · cases m <;> simp [Move.isWait] at hm
    exact .inl ⟨rfl, h⟩
  · rw [spoken_cons _ _ (by simpa using hm)] at h
    injection h with h1 h2
    exact .inr ⟨h1, h2⟩

theorem spoken_nil (m : Move) (env : List Move) (h : spoken (m :: env) = []) : m = .wait ∧ spoken env = [] := by
  by_cases hm : m.isWait = true
  · cases m <;> simp [Move.isWait] at hm
    exact ⟨rfl, h⟩
  · rw [spoken_cons _ _ (by simpa using hm)] at h
    cases h

/-- Answers of the source, with silences between them, are folded over the instance. -/
theorem run_srcAnswers_silent (k : Nat) (later : List Move) : ∀ (env : List Move) (rs : List SrcReply) (s : State)
    (x y : Instance), s.instances[k]? = some x → x.heldDec = none → DecSim x y →
    s.env = env ++ later → spoken env = rs.map (Move.srcAnswer k) →
    ∃ t x', run env.length s = .next t ∧ t.env = later ∧ t.instances[k]? = some x' ∧
      DecSim x' (rs.foldl Instance.srcAnswer y) ∧ x'.heldDec = none := by
  intro env
  induction env with
  | nil =>
    intro rs s x y hx hd hxy he hsp
    have : rs = [] := by cases rs <;> simp [spoken] at hsp ⊢
    subst this
    exact ⟨s, x, rfl, by simpa using he, hx, hxy, hd⟩
  | cons m env ih =>
    intro rs s x y hx hd hxy he hsp
    have wait : m = .wait → spoken env = rs.map (Move.srcAnswer k) → ∃ t x', run (m :: env).length s = .next t ∧
        t.env = later ∧ t.instances[k]? = some x' ∧ DecSim x' (rs.foldl Instance.srcAnswer y) ∧ x'.heldDec = none := by
      rintro rfl hsp
      obtain ⟨s', h1, h2, h3⟩ := step_silent s _ k x he hx
      obtain ⟨t, x', g⟩ := ih rs s' x.wait y h3 (x.wait_heldDec hd) (hxy.wait hd) h2 hsp
      exact ⟨t, x', by rw [List.length_cons, run_succ _ _ _ h1]; exact g.1, g.2⟩
    cases rs with
    | nil => obtain ⟨hm, h⟩ := spoken_nil _ _ hsp; exact wait hm h
    | cons r rs =>
      rcases spoken_split _ _ _ _ hsp with ⟨hm, h⟩ | ⟨rfl, h⟩
      · exact wait hm h
      · obtain ⟨s', h1, h2, h3⟩ : ∃ s', step s = .next s' ∧ s'.env = env ++ later ∧
            s'.instances[k]? = some (x.srcAnswer r) := by
          rw [step_cons s _ _ he]
          simp only [perform]
          rw [State.update_eq _ k _ x (by simpa using hx)]
          exact ⟨_, rfl, rfl, by simp only [getElem?_set_instance _ _ _ _ _ hx, if_true]⟩
        have hd' : (x.srcAnswer r).heldDec = none := by unfold Instance.srcAnswer; split <;> exact hd
        obtain ⟨t, x', g⟩ := ih rs s' _ _ h3 hd' (hxy.answer r) h2 h
        exact ⟨t, x', by rw [List.length_cons, run_succ _ _ _ h1]; exact g.1, g.2⟩

/-- Answers of the sink, with silences between them, are folded over the instance. -/
theorem run_sinkAnswers_silent (k : Nat) (later : List Move) : ∀ (env : List Move) (as : List SinkAnswer) (s : State)
    (x y : Instance), s.instances[k]? = some x → x.heldEnc = none → EncSim x y →
    s.env = env ++ later → spoken env = as.map (Move.sinkAnswer k) →
    ∃ t x', run env.length s = .next t ∧ t.env = later ∧ t.instances[k]? = some x' ∧
      EncSim x' (as.foldl Instance.sinkAnswer y) ∧ x'.heldEnc = none := by
  intro env
  induction env with
  | nil =>
    intro as s x y hx hd hxy he hsp
    have : as = [] := by cases as <;> simp [spoken] at hsp ⊢
    subst this
    exact ⟨s, x, rfl, by simpa using he, hx, hxy, hd⟩
  | cons m env ih =>
    intro as s x y hx hd hxy he hsp
    have wait : m = .wait → spoken env = as.map (Move.sinkAnswer k) → ∃ t x', run (m :: env).length s = .next t ∧
        t.env = later ∧ t.instances[k]? = some x' ∧ EncSim x' (as.foldl Instance.sinkAnswer y) ∧ x'.heldEnc = none := by
      rintro rfl hsp
      obtain ⟨s', h1, h2, h3⟩ := step_silent s _ k x he hx
      obtain ⟨t, x', g⟩ := ih as s' x.wait y h3 (x.wait_heldEnc hd) (hxy.wait hd) h2 hsp
      exact ⟨t, x', by rw [List.length_cons, run_succ _ _ _ h1]; exact g.1, g.2⟩
    cases as with
    | nil => obtain ⟨hm, h⟩ := spoken_nil _ _ hsp; exact wait hm h
    | cons a as =>
      rcases spoken_split _ _ _ _ hsp with ⟨hm, h⟩ | ⟨rfl, h⟩
      · exact wait hm h
      · obtain ⟨s', h1, h2, h3⟩ : ∃ s', step s = .next s' ∧ s'.env = env ++ later ∧
            s'.instances[k]? = some (x.sinkAnswer a) := by
          rw [step_cons s _ _ he]
          simp only [perform]
          rw [State.update_eq _ k _ x (by simpa using hx)]
          exact ⟨_, rfl, rfl, by simp only [getElem?_set_instance _ _ _ _ _ hx, if_true]⟩
        have hd' : (x.sinkAnswer a).heldEnc = none := by unfold Instance.sinkAnswer; split <;> exact hd
        obtain ⟨t, x', g⟩ := ih as s' _ _ h3 hd' (hxy.answer a) h2 h
        exact ⟨t, x', by rw [List.length_cons, run_succ _ _ _ h1]; exact g.1, g.2⟩

/-- A decode operation, with silences anywhere: its start step and the fold of the source's answers. -/
theorem run_decode_silent (k : Nat) (w : Width) (v : Word) (rs : List SrcReply) (later : List Move) :
    ∀ (env : List Move) (s : State) (x y : Instance), s.instances[k]? = some x → x.dec.state ≠ .busy →
    x.heldDec = none → DecSim x y → s.env = env ++ later → spoken env = decodeScript k w v rs →
    ∃ t x', run env.length s = .next t ∧ t.env = later ∧ t.instances[k]? = some x' ∧
      DecSim x' (rs.foldl Instance.srcAnswer { y with dec := y.dec.start w, heldDec := none }) ∧ x'.heldDec = none := by
  intro env
  induction env with
  | nil => intro s x y _ _ _ _ _ h; cases h
  | cons m env ih =>
    intro s x y hx hr hd hxy he hsp
    rcases spoken_split _ _ _ _ hsp with ⟨rfl, h⟩ | ⟨rfl, h⟩
    · obtain ⟨s', h1, h2, h3⟩ := step_silent s _ k x he hx
      have hr' : x.wait.dec.state ≠ .busy := by rw [Instance.wait_dec, hd]; simp only [Decoder.wait_ready _ hr]; exact hr
      obtain ⟨t, x', g⟩ := ih s' x.wait y h3 hr' (x.wait_heldDec hd) (hxy.wait hd) h2 h
      exact ⟨t, x', by rw [List.length_cons, run_succ _ _ _ h1]; exact g.1, g.2⟩
    · obtain ⟨s', h1, h2, h3⟩ := step_command_dec s k w v _ x hx hr he
      have hsim : DecSim { x with dec := x.dec.start w, heldDec := none }
          { y with dec := y.dec.start w, heldDec := none } := by
        refine ⟨hxy.1, ?_⟩
        rw [hxy.2]; rfl
      obtain ⟨t, x', g⟩ := run_srcAnswers_silent k later env rs s' _ _ h3 rfl hsim h2 h
      exact ⟨t, x', by rw [List.length_cons, run_succ _ _ _ h1]; exact g.1, g.2⟩

/-- An encode operation, with silences anywhere: its start step and the fold of the sink's answers. -/
theorem run_encode_silent (k : Nat) (w : Width) (v : Word) (as : List SinkAnswer) (later : List Move) :
    ∀ (env : List Move) (s : State) (x y : Instance), s.instances[k]? = some x → x.enc.state ≠ .busy →
    x.enc.pending = none → x.heldEnc = none → x.enc = y.enc → x.sink = y.sink → s.env = env ++ later →
    spoken env = encodeScript k w v as →
    ∃ t x', run env.length s = .next t ∧ t.env = later ∧ t.instances[k]? = some x' ∧
      EncSim x' (as.foldl Instance.sinkAnswer { y with enc := y.enc.start w v, heldEnc := none }) ∧
      x'.heldEnc = none := by
  intro env
  induction env with
  | nil => intro s x y _ _ _ _ _ _ _ h; cases h
  | cons m env ih =>
    intro s x y hx hr hp hd hxy hs he hsp
    rcases spoken_split _ _ _ _ hsp with ⟨rfl, h⟩ | ⟨rfl, h⟩
    · obtain ⟨s', h1, h2, h3⟩ := step_silent s _ k x he hx
      have hw : x.wait.enc = x.enc := by rw [Instance.wait_enc, hd]; exact Encoder.wait_ready _ hr
      obtain ⟨t, x', g⟩ := ih s' x.wait y h3 (by rwa [hw]) (by rwa [hw]) (x.wait_heldEnc hd) (by rw [hw, hxy])
        (by rw [Instance.wait_sink, hs]) h2 h
      exact ⟨t, x', by rw [List.length_cons, run_succ _ _ _ h1]; exact g.1, g.2⟩
    · obtain ⟨s', h1, h2, h3⟩ := step_command_enc s k w v _ x hx hr he
      have hsim : EncSim { x with enc := x.enc.start w v, heldEnc := none }
          { y with enc := y.enc.start w v, heldEnc := none } := by
        refine ⟨hs, by rw [hxy], by rw [← hxy]; exact hp, ?_⟩
        intro b hb
        have : x.enc.pending = some b := hb
        rw [hp] at this
        cases this
      obtain ⟨t, x', g⟩ := run_sinkAnswers_silent k later env as s' _ _ h3 rfl hsim h2 h
      exact ⟨t, x', by rw [List.length_cons, run_succ _ _ _ h1]; exact g.1, g.2⟩

end Sys2Proof.Machine
end

