-- ==== Sys2Proof/Tests/Slice0.lean ====
section
/-! SUPPORT. Tests of the model against spec/ (95_test_vectors.md, 30_encoding.md R47 and R50), the refusals of the
well-formedness checks, and for every statement with hypotheses a state and operands that meet them together. -/

namespace Sys2Proof.Tests

open Sys2Proof.Machine

/-! ### Small states -/

/-- A machine of one instance and an outside world. -/
def one (x : Instance) (env : List Move) : State :=
  { instances := [x], sel := 0, env := env, reads := [], draws := 0 }

/-- An instance fresh from reset with bytes in its source. -/
def withSrc (src : List Byte) : Instance := { Instance.reset with src := src }

/-- An instance whose decoder is in the middle of an operation. -/
def decBusy (w : Width) (acc : Word) (offset : BitVec 7) (src : List Byte) : Instance :=
  { Instance.reset with dec := { Decoder.reset with state := .busy, w := w, acc := acc, offset := offset }, src := src }

/-- An instance whose encoder is in the middle of an operation. -/
def encBusy (w : Width) (rem : Word) : Instance :=
  { Instance.reset with enc := { Encoder.reset with state := .busy, w := w, rem := rem } }

/-- An instance whose units have both ended an operation with OK, the decoder with RESULT 1. -/
def done : Instance :=
  { Instance.reset with
    dec := { Decoder.reset with state := .complete, result := some 1, acc := 1, offset := 7 }
    enc := { Encoder.reset with state := .complete } }

/-- A fact about the next state; false where there is none. -/
def next (o : Host.Outcome State Fault Refusal) (p : State → Bool) : Bool :=
  match o with
  | .next s => p s
  | .fault _ => false
  | .refused _ => false

/-- A fact about the only instance after one step. -/
def after (x : Instance) (env : List Move) (p : Instance → Bool) : Bool :=
  next (step (one x env)) fun t => match t.instances with
    | [y] => p y
    | _ => false

/-- The fault a step answers, if it answers one. -/
def faultOf (o : Host.Outcome State Fault Refusal) : Option Fault :=
  match o with
  | .next _ => none
  | .fault r => some r
  | .refused _ => none

/-- The refusal a step answers, if it answers one. -/
def refusalOf (o : Host.Outcome State Fault Refusal) : Option Refusal :=
  match o with
  | .next _ => none
  | .fault _ => none
  | .refused r => some r

/-! ### Well-formedness -/

/-- R49: every command is legal. -/
theorem test_commands_well_formed : (Instr.enc32 0).wellFormed && (Instr.enc64 (-1)).wellFormed &&
    (Instr.dec32 7).wellFormed && (Instr.dec64 0).wellFormed = true := by decide

/-- A move that names an instance the machine does not have is refused; the last one it has, and no index, are not. -/
theorem test_move_ill_formed : (Move.command 1 0b00#2 0).wellFormed 1 = false ∧ (Move.withdraw 3 .decoder).wellFormed 3 = false ∧
    (Move.srcAnswer 0 .deliver).wellFormed 0 = false ∧ (Move.sinkAnswer 2 .ok).wellFormed 1 = false ∧
    (Move.feedSrc 1 []).wellFormed 1 = false ∧ (Move.connectSrc 1 []).wellFormed 1 = false ∧
    (Move.connectSink 1 []).wellFormed 1 = false ∧ (Move.read 1 .decState).wellFormed 1 = false ∧
    (Move.command 1 0b00#2 0).wellFormed 2 = true ∧ (Move.reset []).wellFormed 0 = true := by decide

/-- Such a move is a fault of the step. -/
theorem test_move_ill_formed_faults :
    faultOf (step (one Instance.reset [.srcAnswer 1 .fail])) = some .noSuchInstance := by decide

/-- R50: a pattern of more than W bits, and a decimal just outside its range, is no immediate. -/
theorem test_line_ill_formed : assembleLine (.enc32 (.dec (2 ^ 31))) = none ∧
    assembleLine (.enc32 (.dec (-(2 ^ 31) - 1))) = none ∧ assembleLine (.enc32 (.hex 0x100000000)) = none ∧
    assembleLine (.enc64 (.dec (2 ^ 63))) = none ∧ assembleLine (.enc64 (.dec (-(2 ^ 63) - 1))) = none ∧
    assembleLine (.enc64 (.hex 0x10000000000000000)) = none := by decide

/-- The lines of program P1 and P4 (95_test_vectors.md section 4). -/
theorem test_line_P1_P4 : assembleLine (.enc32 (.dec 300)) = some (.enc32 0x000000000000012C#64) ∧
    assembleLine (.enc32 (.dec (-1))) = some (.enc32 0x00000000FFFFFFFF#64) ∧
    assembleLine (.enc64 (.dec (-1))) = some (.enc64 0xFFFFFFFFFFFFFFFF#64) ∧
    assembleLine (.enc32 (.dec (-2147483648))) = some (.enc32 0x0000000080000000#64) ∧
    assembleLine .dec64 = some (.dec64 0) := by decide

/-- R50's notation of an outcome. -/
theorem test_shown : showDecode done.dec = some (.value 1) ∧
    showDecode { done.dec with status := .overlong, result := none } = some (.error .overlong) ∧
    showDecode Decoder.reset = none := by decide

/-! ### Decoding a command (R47: OP is bits 1:0, VALUE the 64 bits above it) -/

/-- VALUE 300 = 1 0010 1100, OP 00. -/
theorem test_decode_enc32 : decodeTableWord 66 0b100101100_00 = some (.enc32 300) := by decide
/-- VALUE 64 ones, OP 01. -/
theorem test_decode_enc64 : decodeTableWord 66 0b11_1111_1111_1111_1111_1111_1111_1111_1111_1111_1111_1111_1111_1111_1111_1111_1101 =
    some (.enc64 0xFFFFFFFFFFFFFFFF#64) := by decide
/-- VALUE 0, OP 10. -/
theorem test_decode_dec32 : decodeTableWord 2 0b10 = some (.dec32 0) := by decide
/-- VALUE 1, OP 11. -/
theorem test_decode_dec64 : decodeTableWord 8 0b0000_0111 = some (.dec64 1) := by decide
/-- A bit beyond the two fields is refused by name; the top bit of VALUE is not. -/
theorem test_decode_refused : decodeWord (2 ^ 66) = .error .bitsBeyondCommand ∧
    decodeWord (2 ^ 65) = .ok (.enc32 0x8000000000000000#64) := by decide

/-! ### One step of each command -/

/-- V-E32-20: VALUE[63:32] is ignored. -/
theorem test_enc32_start : after Instance.reset [.command 0 0b00#2 0xDEADBEEF0000012C#64]
    (fun y => y.enc.state = .busy && y.enc.w = .w32 && y.enc.rem = 0x12C#64 && y.sink = []) = true := by decide
/-- S4, step 1 of its trace. -/
theorem test_enc32_step : after (encBusy .w32 0xFFFFFFFF#64) [.sinkAnswer 0 .ok]
    (fun y => y.enc.state = .busy && y.enc.rem = 0x01FFFFFF#64 && y.sink = [0xFF#8]) = true := by decide
/-- V-E64-12: VALUE is sampled whole. -/
theorem test_enc64_start : after done [.command 0 0b01#2 0xFFFFFFFFFFFFFFFF#64]
    (fun y => y.enc.state = .busy && y.enc.w = .w64 && y.enc.rem = 0xFFFFFFFFFFFFFFFF#64) = true := by decide
/-- V-E64-12, the tenth group: REM = 1. -/
theorem test_enc64_step : after (encBusy .w64 1#64) [.sinkAnswer 0 .ok]
    (fun y => y.enc.state = .complete && y.enc.status = .ok && y.sink = [0x01#8]) = true := by decide
/-- V-D32-8, the fifth byte: the sign comes from DATA[3]. -/
theorem test_dec32_step : after (decBusy .w32 0 28 [0x08#8]) [.srcAnswer 0 .deliver]
    (fun y => y.dec.state = .complete && y.dec.status = .ok && y.dec.result = some 0xFFFFFFFF80000000#64) = true := by
  decide
/-- S5, step 5 of its trace; the sixth byte stays. -/
theorem test_dec32_overlong : after (decBusy .w32 0x0FFFFFFF#64 28 [0xFF#8, 0xFF#8]) [.srcAnswer 0 .deliver]
    (fun y => y.dec.status = .overlong && y.dec.acc = 0xFFFFFFFF#64 && y.dec.offset = 35 && y.dec.result = none &&
      y.src = [0xFF#8]) = true := by decide
/-- V-D64-9, the tenth byte: bit 63 is DATA[0] only. -/
theorem test_dec64_step : after (decBusy .w64 0x7FFFFFFFFFFFFFFF#64 63 [0x7E#8]) [.srcAnswer 0 .deliver]
    (fun y => y.dec.status = .ok && y.dec.result = some 0x7FFFFFFFFFFFFFFF#64) = true := by decide
/-- V-D64-12, the tenth byte. -/
theorem test_dec64_overlong : after (decBusy .w64 0 63 [0x80#8]) [.srcAnswer 0 .deliver]
    (fun y => y.dec.state = .complete && y.dec.status = .overlong && y.dec.result = none) = true := by decide

/-! ### The other moves -/

/-- V-WF-1: nothing is appended. -/
theorem test_write_failure : after (encBusy .w32 300) [.sinkAnswer 0 .fail]
    (fun y => y.enc.status = .writeFailure && y.sink = []) = true := by decide
/-- V-D32-16 and V-D32-18: a source with no byte left. -/
theorem test_read_failure : after (decBusy .w32 0x0FFFFFFF#64 28 []) [.srcAnswer 0 .deliver]
    (fun y => y.dec.status = .readFailure && y.dec.offset = 28 && y.dec.result = none) = true := by decide
/-- R24: RESULT is not valid right after reset. -/
theorem test_read_fault : faultOf (step (one Instance.reset [.read 0 .decResult])) = some .resultNotValid ∧
    faultOf (step (one (encBusy .w32 0) [.read 0 .encStatus])) = some .statusNotValid := by decide
/-- R13 and R30: a silent source shows the request. -/
theorem test_wait : after (decBusy .w32 0 0 [0x05#8]) [] (fun y => y.dec.pending && y.src = [0x05#8]) = true := by decide
/-- R82: an aborting reset at which the read had taken effect. -/
theorem test_reset_aborts : after { decBusy .w64 0 7 [0xAC#8, 0x02#8] with dec := { (decBusy .w64 0 7 []).dec with pending := true } }
    [.reset [⟨true, false⟩]] (fun y => y.dec.state = .idle && y.dec.result = none && y.src = [0x02#8]) = true := by decide
/-- The command of a table row placed at reset is run by the next step. -/
theorem test_placed : next (step (State.reset.withFetchWord 8 0b11)) (fun t => t.instances.map (·.dec.state) = [.busy]) = true := by
  decide

/-! ### The wire format (95_test_vectors.md sections 1 to 3) -/

/-- V-E32-18, V-E32-13 and V-E64-16. -/
theorem test_encode_groups : encodeGroups .w32 0xFFFFFED4#32 = [0xD4#8, 0xFD#8, 0xFF#8, 0xFF#8, 0x0F#8] ∧
    encodeGroups .w32 0x10000000#32 = [0x80#8, 0x80#8, 0x80#8, 0x80#8, 0x01#8] ∧
    encodeGroups .w64 0xFFFFFFFF80000000#64 =
      [0x80#8, 0x80#8, 0x80#8, 0x80#8, 0xF8#8, 0xFF#8, 0xFF#8, 0xFF#8, 0xFF#8, 0x01#8] := by decide
/-- V-D32-21, V-D32-10, V-D64-3 and V-D32-13. -/
theorem test_decode_value : decodeValue 32 [0xD4#8, 0xFD#8, 0xFF#8, 0xFF#8, 0x0F#8] = -300 ∧
    decodeValue 32 [0xFF#8, 0xFF#8, 0xFF#8, 0xFF#8, 0x7F#8] = -1 ∧
    decodeValue 64 [0xFF#8, 0xFF#8, 0xFF#8, 0xFF#8, 0x0F#8] = 4294967295 ∧
    decodeValue 32 [0xFF#8, 0x80#8, 0x00#8] = 127 := by decide
/-- R44's table at the ends of its rows. -/
theorem test_group_length : groupLength 0x0#32 = 1 ∧ groupLength 0x7F#32 = 1 ∧ groupLength 0x80#32 = 2 ∧
    groupLength 0x3FFF#32 = 2 ∧ groupLength 0x4000#32 = 3 ∧ groupLength 0x7FFFFFFFFFFFFFFF#64 = 9 ∧
    groupLength 0x8000000000000000#64 = 10 := by decide

/-! ### Witnesses: a state and operands that meet the hypotheses of a statement, clause by clause -/

theorem witness_CommandWordRoundTrip : 2 ^ 66 - 1 < 2 ^ 66 ∧ 0 < 2 ^ 66 := by decide

theorem witness_StepRunsThePresentedCommand :
    (one Instance.reset [.command 0 0b10#2 5]).env = .command 0 0b10#2 5 :: [] := rfl

theorem witness_PlacedCommandRunsNext : decodeTableWord 8 0x2 = some (.dec32 0) ∧
    decodeTableWord 66 (2 ^ 66 - 1) = some (.dec64 0xFFFFFFFFFFFFFFFF#64) := by decide

/-- n = 7 in W = 32: the last bit that comes from v, the first that is 0, and the top. -/
theorem witness_LogicalShiftRightBits : 7 < 32 ∧ 24 < 32 - 7 ∧ 32 - 7 ≤ 25 ∧ 32 - 7 ≤ 31 ∧
    fitsSeven (encBusy .w64 0x80#64).enc.remaining = false := by decide

theorem witness_LeftShiftBits : 28 < 32 ∧ 28 ≤ 28 ∧ 28 ≤ 31 ∧ 31 < 32 ∧ 27 < 28 := by decide

theorem witness_SignedReading : 0 < 32 ∧ -(2 ^ (32 - 1) : Int) ≤ -2147483648 ∧ (-2147483648 : Int) < 2 ^ (32 - 1) ∧
    -(2 ^ (32 - 1) : Int) ≤ 2147483647 ∧ (2147483647 : Int) < 2 ^ (32 - 1) := by decide

theorem witness_DecodeCommandStarts :
    ((one Instance.reset []).instances[0]? = some Instance.reset ∧ Instance.reset.dec.state = .idle) ∧
    ((one done []).instances[0]? = some done ∧ done.dec.state = .complete) := by decide

theorem witness_EncodeCommandStarts :
    ((one Instance.reset []).instances[0]? = some Instance.reset ∧ Instance.reset.enc.state = .idle) ∧
    ((one done []).instances[0]? = some done ∧ done.enc.state = .complete) := by decide

theorem witness_BusyUnitLeavesCommandWithHost :
    ((one (decBusy .w32 0 0 []) [.withdraw 0 .decoder]).instances[0]? = some (decBusy .w32 0 0 []) ∧
      (decBusy .w32 0 0 []).dec.state = .busy ∧ (decBusy .w32 0 0 []).enc.state ≠ .busy) ∧
    ((one (encBusy .w64 1) [.withdraw 0 .encoder]).instances[0]? = some (encBusy .w64 1) ∧
      (encBusy .w64 1).enc.state = .busy ∧ (encBusy .w64 1).dec.state ≠ .busy) := by decide

theorem witness_HeldCommandStartsWhenReady :
    (one { done with heldDec := some ⟨.w32, 0⟩, heldEnc := some ⟨.w64, 300⟩ } []).instances[0]? =
      some { done with heldDec := some ⟨.w32, 0⟩, heldEnc := some ⟨.w64, 300⟩ } ∧
    done.dec.state ≠ .busy ∧ done.enc.state ≠ .busy ∧ (one done []).env = [] ∧
    (one done [.wait, .wait]).env = .wait :: [.wait] := by decide

theorem witness_EveryCommandIsTaken : (one done []).instances[0]? = some done ∧ done.dec.state ≠ .busy ∧
    done.enc.state ≠ .busy ∧
    (0xDEADBEEF0000012C#64).extractLsb' 0 32 = (0x12C#64).extractLsb' 0 32 := by decide

/-- Each of the four commands answers a next state, at a ready unit and at a busy one. -/
theorem witness_CommandFrame :
    next (exec (.enc32 1) (one done [])) (fun _ => true) && next (exec (.enc64 1) (one done [])) (fun _ => true) &&
    next (exec (.dec32 1) (one done [])) (fun _ => true) && next (exec (.dec64 1) (one done [])) (fun _ => true) &&
    next (exec (.dec64 1) (one (decBusy .w32 0 0 []) [])) (fun _ => true) &&
    next (exec (.enc64 1) (one (encBusy .w32 0) [])) (fun _ => true) = true := by decide

/-- A Fail; a byte with C = 0 and one with C = 1 at the first and at the last group index of either width. -/
theorem witness_DecodeStepOutcome :
    (decBusy .w32 0 28 [0x08#8]).dec.state = .busy ∧ (decBusy .w32 0 28 [0x08#8]).dec.w = .w32 ∧
    (decBusy .w32 0 28 [0x08#8]).src = 0x08#8 :: [] ∧ (decBusy .w32 0 28 [0x88#8]).src = 0x88#8 :: [] ∧
    (decBusy .w64 0 63 [0x01#8]).dec.state = .busy ∧ (decBusy .w64 0 63 [0x01#8]).dec.w = .w64 ∧
    (decBusy .w64 0 63 [0x01#8]).src = 0x01#8 :: [] ∧ (decBusy .w64 0 0 [0x81#8]).src = 0x81#8 :: [] ∧
    (one (decBusy .w32 0 28 [0x08#8]) [.srcAnswer 0 .deliver]).env = .srcAnswer 0 .deliver :: [] ∧
    (one (decBusy .w32 0 28 [0x08#8]) [.srcAnswer 0 .deliver]).instances[0]? = some (decBusy .w32 0 28 [0x08#8]) ∧
    (one (decBusy .w64 0 0 []) [.srcAnswer 0 .fail]).env = .srcAnswer 0 .fail :: [] ∧
    (one (decBusy .w64 0 0 []) [.wait]).env = .wait :: [] ∧
    (one (decBusy .w64 0 63 [0x01#8]) [.srcAnswer 0 .deliver]).instances[0]? =
      some (decBusy .w64 0 63 [0x01#8]) := by decide

theorem witness_EmptySourceFails :
    (one (decBusy .w64 0 0 []) [.srcAnswer 0 .deliver]).instances[0]? = some (decBusy .w64 0 0 []) ∧
    (decBusy .w64 0 0 []).dec.state = .busy ∧ (decBusy .w64 0 0 []).src = [] ∧
    (one (decBusy .w64 0 0 []) [.srcAnswer 0 .deliver]).env = .srcAnswer 0 .deliver :: [] := by decide

/-- Index 3 goes on, index 4 is the last of W = 32, index 9 the last of W = 64. -/
theorem witness_CheckOrder :
    ((decBusy .w32 0 21 []).dec.state = .busy ∧ (decBusy .w32 0 21 []).dec.offset.toNat = 7 * 3 ∧
      3 + 1 < (decBusy .w32 0 21 []).dec.w.maxGroups) ∧
    ((decBusy .w32 0 28 []).dec.offset.toNat = 7 * 4 ∧ 4 + 1 = (decBusy .w32 0 28 []).dec.w.maxGroups) ∧
    ((decBusy .w64 0 63 []).dec.offset.toNat = 7 * 9 ∧ 9 + 1 = (decBusy .w64 0 63 []).dec.w.maxGroups) ∧
    (0x80#8).getLsbD 7 = true ∧ (0x7F#8).getLsbD 7 = false ∧ (encBusy .w32 0).enc.state = .busy := by decide

/-- A byte not yet offered, and one on offer, the last group and one before it. -/
theorem witness_EncodeStepOutcome :
    (one (encBusy .w32 0x7F) [.sinkAnswer 0 .ok]).instances[0]? = some (encBusy .w32 0x7F) ∧
    (encBusy .w32 0x7F).enc.state = .busy ∧ (encBusy .w32 0x7F).enc.w = .w32 ∧
    (encBusy .w32 0x7F).enc.pending = none ∧
    (encBusy .w64 0x80).enc.w = .w64 ∧ (encBusy .w64 0x80).enc.state = .busy ∧
    (({ (encBusy .w64 0x80).enc with pending := some 0x80#8 } : Encoder).pending = some (0x80#8 ||| (0x80#64 &&& 0x7F#64).setWidth 8)) ∧
    (one (encBusy .w32 0x7F) [.sinkAnswer 0 .ok]).env = .sinkAnswer 0 .ok :: [] ∧
    (one (encBusy .w32 0x7F) [.sinkAnswer 0 .fail]).env = .sinkAnswer 0 .fail :: [] ∧
    (one (encBusy .w32 0x7F) [.wait]).env = .wait :: [] := by decide

theorem witness_AnswerWithoutRequestIgnored :
    (one done [.srcAnswer 0 .deliver]).instances[0]? = some done ∧ done.dec.state ≠ .busy ∧
    (one done [.srcAnswer 0 .deliver]).env = .srcAnswer 0 .deliver :: [] ∧ done.enc.state ≠ .busy ∧
    (one done [.sinkAnswer 0 .fail]).env = .sinkAnswer 0 .fail :: [] := by decide

theorem witness_UnansweredRequestHolds :
    (one (decBusy .w32 0 0 []) []).instances[0]? = some (decBusy .w32 0 0 []) ∧ (one (decBusy .w32 0 0 []) []).env = [] ∧
    (decBusy .w32 0 0 []).dec.state = .busy ∧ (one (encBusy .w32 0) []).instances[0]? = some (encBusy .w32 0) ∧
    (encBusy .w32 0).enc.state = .busy := by decide

theorem witness_GroupPlacesItsDataBits : 31 < 32 ∧ 0 < 64 ∧ 6 < 7 ∧
    (encodeGroups .w32 0xFFFFFFFF#32)[4]? = some 0x0F#8 ∧ (encodeGroups .w64 0#64)[0]? = some 0x00#8 := by decide

theorem witness_EncodedLength : 0 < bitLen 0x80000000#32 ∧ 1 ≤ 5 := by decide

theorem witness_NegativeTakesAllGroups : (0x80000000#32).getLsbD 31 = true ∧ (0xFFFFFFFFFFFFFFFF#64).getLsbD 63 = true ∧
    (encodeGroups .w32 0xFFFFFFFF#32)[4]? = some 0x0F#8 ∧
    (encodeGroups .w64 0xFFFFFFFFFFFFFFFF#64)[9]? = some 0x01#8 := by decide

theorem witness_ExcessBitsHaveNoEffect : [0xFF#8, 0xFF#8, 0xFF#8, 0xFF#8].length = 4 ∧
    0x7F#8 &&& 0x0F#8 = 0x1F#8 &&& 0x0F#8 ∧ (List.replicate 9 0xFF#8).length = 9 ∧
    0x7F#8 &&& 0x01#8 = 0x01#8 &&& 0x01#8 ∧ (0x7F#8).getLsbD 7 = false ∧
    (encodeGroups .w32 0x10000000#32)[4]? = some 0x01#8 ∧
    (encodeGroups .w64 0x8000000000000000#64)[9]? = some 0x01#8 := by decide

/-- `80 00` from `00`, and a padding that fills MAX_GROUPS. -/
theorem witness_PaddingKeepsTheValue : (∀ b ∈ [0xFF#8], b.getLsbD 7 = true) ∧ (0x01#8).getLsbD 7 = false ∧
    [0xFF#8].length + 2 + 2 ≤ Width.w32.maxGroups ∧ ([] : List Byte).length + 0 + 2 ≤ Width.w32.maxGroups := by decide

theorem witness_WidthsAgreeOnNonnegative : (0x7FFFFFFF#64).toNat < 2 ^ 31 ∧ (0#64).toNat < 2 ^ 31 ∧
    (0x80000000#32).getLsbD 31 = true := by decide

theorem witness_EncodingIsMinimal : assemble Width.w32.bits [0x80#8, 0x00#8] = 0 ∧ [0x80#8, 0x00#8] ≠ [] ∧
    encodeGroups .w32 0#32 = [] ++ [0x00#8] ∧ (encodeGroups .w32 0#32).length < 5 ∧ 5 ≤ Width.w32.maxGroups := by decide

/-- The outside world of one decode of two bytes, with silences. -/
def decodeWorld : List Move :=
  [.wait, .command 0 0b10#2 0, .srcAnswer 0 .deliver, .wait, .wait, .srcAnswer 0 .deliver]

/-- S2: `AC 02`, with a byte left over; and a source of five groups at the end of its range. -/
theorem witness_AcceptedSequenceDecodes :
    (one (withSrc [0xAC#8, 0x02#8, 0x05#8]) decodeWorld).instances[0]? = some (withSrc [0xAC#8, 0x02#8, 0x05#8]) ∧
    (withSrc [0xAC#8, 0x02#8, 0x05#8]).dec.state ≠ .busy ∧ (withSrc [0xAC#8, 0x02#8, 0x05#8]).heldDec = none ∧
    (withSrc [0xAC#8, 0x02#8, 0x05#8]).src = [0xAC#8] ++ 0x02#8 :: [0x05#8] ∧ [0xAC#8].length < Width.w32.maxGroups ∧
    (List.replicate 4 0xFF#8).length < Width.w32.maxGroups ∧
    (∀ b ∈ [0xAC#8], b.getLsbD 7 = true) ∧ (0x02#8).getLsbD 7 = false ∧
    spoken decodeWorld = decodeScript 0 .w32 0 (List.replicate ([0xAC#8].length + 1) .deliver) := by decide

/-- S5 (five bytes with C = 1), and S7 (`80`, then Fail). -/
theorem witness_RejectedSequences :
    ((withSrc (List.replicate 6 0xFF#8)).src = List.replicate 5 0xFF#8 ++ [0xFF#8] ∧
      (∀ b ∈ List.replicate 5 0xFF#8, b.getLsbD 7 = true) ∧ (List.replicate 5 0xFF#8).length = Width.w32.maxGroups ∧
      spoken (.command 0 0b10#2 0 :: List.replicate 5 (.srcAnswer 0 .deliver)) =
        decodeScript 0 .w32 0 (List.replicate (List.replicate 5 0xFF#8).length .deliver)) ∧
    ((withSrc [0x80#8]).src = [0x80#8] ++ [] ∧ (∀ b ∈ [0x80#8], b.getLsbD 7 = true) ∧
      [0x80#8].length < Width.w32.maxGroups ∧ (withSrc [0x80#8]).dec.state ≠ .busy ∧
      (withSrc [0x80#8]).heldDec = none ∧ (one (withSrc [0x80#8]) []).instances[0]? = some (withSrc [0x80#8]) ∧
      spoken [.command 0 0b10#2 0, .wait, .srcAnswer 0 .deliver, .srcAnswer 0 .fail] =
        decodeScript 0 .w32 0 (List.replicate [0x80#8].length .deliver ++ [.fail])) := by decide

/-- One byte of `AC 02` consumed, its second answer still to come. -/
theorem witness_AccumulatorWhileDecoding :
    (withSrc [0xAC#8, 0x02#8]).dec.state ≠ .busy ∧ (withSrc [0xAC#8, 0x02#8]).heldDec = none ∧
    (withSrc [0xAC#8, 0x02#8]).src = [0xAC#8] ++ [0x02#8] ∧
    (one (withSrc [0xAC#8, 0x02#8]) decodeWorld).instances[0]? = some (withSrc [0xAC#8, 0x02#8]) ∧
    (one (withSrc [0xAC#8, 0x02#8]) decodeWorld).env = decodeWorld.take 3 ++ decodeWorld.drop 3 ∧
    spoken (decodeWorld.take 3) = decodeScript 0 .w32 0 (List.replicate [0xAC#8].length .deliver) ∧
    (∀ b ∈ [0xAC#8], b.getLsbD 7 = true) ∧ [0xAC#8].length ≤ Width.w32.maxGroups - 1 := by decide

/-- The outside world of ENC32 300 (S2), with silences. -/
def encodeWorld : List Move := [.command 0 0b00#2 300, .wait, .sinkAnswer 0 .ok, .wait, .sinkAnswer 0 .ok, .wait]

theorem witness_EncodeWritesTheGroups :
    (one Instance.reset encodeWorld).instances[0]? = some Instance.reset ∧ Instance.reset.enc.state ≠ .busy ∧
    Instance.reset.enc.pending = none ∧ Instance.reset.heldEnc = none ∧
    spoken (one Instance.reset encodeWorld).env =
      encodeScript 0 .w32 300 (List.replicate (groupLength ((300#64).setWidth Width.w32.bits)) .ok) := by decide

/-- One byte of two accepted: still BUSY. -/
theorem witness_RemainingWhileEncoding :
    (one Instance.reset encodeWorld).env = encodeWorld.take 3 ++ encodeWorld.drop 3 ∧
    spoken (encodeWorld.take 3) = encodeScript 0 .w32 300 (List.replicate 1 .ok) ∧
    1 < groupLength ((300#64).setWidth Width.w32.bits) ∧ Instance.reset.enc.state ≠ .busy ∧
    (one Instance.reset encodeWorld).instances[0]? = some Instance.reset ∧
    Instance.reset.enc.pending = none ∧ Instance.reset.heldEnc = none := by decide

/-- V-WF-2, and V-WF-1 where no byte is accepted. -/
theorem witness_WriteFailureLeavesPrefix : 1 < groupLength ((300#64).setWidth Width.w32.bits) ∧
    0 < groupLength ((300#64).setWidth Width.w32.bits) ∧
    spoken [.command 0 0b00#2 300, .sinkAnswer 0 .ok, .wait, .sinkAnswer 0 .fail] =
      encodeScript 0 .w32 300 (List.replicate 1 .ok ++ [.fail]) ∧
    spoken [.command 0 0b00#2 300, .sinkAnswer 0 .fail] =
      encodeScript 0 .w32 300 (List.replicate 0 .ok ++ [.fail]) ∧
    Instance.reset.enc.state ≠ .busy ∧ Instance.reset.enc.pending = none ∧ Instance.reset.heldEnc = none ∧
    (one Instance.reset []).instances[0]? = some Instance.reset := by decide

/-- ENC32 300 on one machine; `AC 02` and a byte more on another. -/
theorem witness_RoundTrip :
    spoken encodeWorld = encodeScript 0 .w32 300 (List.replicate (groupLength ((300#64).setWidth Width.w32.bits)) .ok) ∧
    encodeGroups .w32 ((300#64).setWidth 32) = [0xAC#8, 0x02#8] ∧
    (withSrc [0xAC#8, 0x02#8, 0x05#8]).src = [0xAC#8, 0x02#8] ++ [0x05#8] ∧
    (withSrc [0xAC#8, 0x02#8, 0x05#8]).dec.state ≠ .busy ∧ (withSrc [0xAC#8, 0x02#8, 0x05#8]).heldDec = none ∧
    spoken decodeWorld = decodeScript 0 .w32 0 (List.replicate [0xAC#8, 0x02#8].length .deliver) ∧
    (one Instance.reset encodeWorld).instances[0]? = some Instance.reset ∧ Instance.reset.enc.state ≠ .busy ∧
    Instance.reset.enc.pending = none ∧ Instance.reset.heldEnc = none := by decide

theorem decBusy_inv : (decBusy .w32 0 0 [0x80#8]).dec.Inv :=
  { request := by decide
    result_valid := by decide
    result_value := fun _ h => by cases h
    own_codes := by decide
    busy_offset := fun _ => ⟨0, by decide, by decide⟩
    busy_acc := by decide
    done_offset := fun h => by cases h
    narrow_acc := by decide }

theorem encReset_inv : Encoder.reset.Inv :=
  { request := by decide
    request_byte := fun _ h => by cases h
    own_codes := fun h => by cases h
    narrow_rem := by decide }

theorem witness_AnsweredDecodeEnds : (decBusy .w32 0 0 [0x80#8]).dec.Inv ∧
    (decBusy .w32 0 0 [0x80#8]).dec.state = .busy ∧ (decBusy .w32 0 0 [0x80#8]).heldDec = none ∧
    (List.replicate 5 SrcReply.deliver).length = (decBusy .w32 0 0 [0x80#8]).dec.w.maxGroups ∧
    (one (decBusy .w32 0 0 [0x80#8]) []).instances[0]? = some (decBusy .w32 0 0 [0x80#8]) ∧
    spoken (.wait :: List.replicate 5 (.srcAnswer 0 .deliver)) =
      (List.replicate 5 SrcReply.deliver).map (Move.srcAnswer 0) :=
  ⟨decBusy_inv, by decide⟩

theorem witness_AnsweredEncodeEnds : (encBusy .w64 (-1)).enc.state = .busy ∧ (encBusy .w64 (-1)).heldEnc = none ∧
    (one (encBusy .w64 (-1)) []).instances[0]? = some (encBusy .w64 (-1)) ∧
    (List.replicate 10 SinkAnswer.ok).length = (encBusy .w64 (-1)).enc.w.maxGroups ∧
    spoken (.wait :: List.replicate 10 (.sinkAnswer 0 .ok)) =
      (List.replicate 10 SinkAnswer.ok).map (Move.sinkAnswer 0) := by decide

/-- A unit fresh from reset and one that has ended an operation, with different registers. -/
theorem witness_NothingCarriedOver : Instance.reset.dec.state = .idle ∧ done.dec.state = .complete ∧
    Instance.reset.dec ≠ done.dec ∧ Instance.reset.src = done.src ∧ Instance.reset.heldDec = none ∧ done.heldDec = none ∧
    Instance.reset.enc.state = .idle ∧ done.enc.state = .complete ∧ Instance.reset.enc.pending = none ∧
    done.enc.pending = none ∧ Instance.reset.heldEnc = none ∧ done.heldEnc = none ∧
    (one done decodeWorld).instances[0]? = some done ∧
    (one Instance.reset encodeWorld).instances[0]? = some Instance.reset ∧
    spoken decodeWorld = decodeScript 0 .w32 0 [.deliver, .deliver] ∧
    spoken encodeWorld = encodeScript 0 .w32 300 [.ok, .ok] := by decide

/-- The two units of one instance, and one unit of two instances. -/
theorem witness_UnitsCommute :
    (Move.srcAnswer 0 .deliver).unit = some (0, .decoder) ∧ (Move.command 0 0b00#2 7).unit = some (0, .encoder) ∧
    (0, UnitName.decoder) ≠ (0, UnitName.encoder) ∧ (Move.command 1 0b11#2 7).unit = some (1, .decoder) ∧
    (0, UnitName.decoder) ≠ (1, UnitName.decoder) ∧ 1 < (State.resetWith 2).instances.length := by decide

theorem witness_OtherUnitsUntouched : (Move.sinkAnswer 0 .ok).unit = some (0, .encoder) ∧
    (Move.feedSrc 0 [0x01#8]).unit = some (0, .decoder) ∧
    next (perform (.sinkAnswer 0 .ok) (one (encBusy .w32 5) [])) (fun _ => true) = true ∧
    next (perform (.feedSrc 0 [0x01#8]) (one done [])) (fun _ => true) = true := by decide

/-- Steps that start an operation (on a command presented, and on one held in a silence) and that end one. -/
theorem witness_StateTransitions :
    next (step (one done [.command 0 0b10#2 0])) (fun t => t.instances.length = 1) = true ∧
    after { done with heldEnc := some ⟨.w32, 1⟩ } [] (fun y => y.enc.state = .busy && y.dec.state = .complete) = true ∧
    after (decBusy .w32 0 28 [0x01#8]) [.srcAnswer 0 .deliver] (fun y => y.dec.state = .complete) = true ∧
    after (encBusy .w32 1) [.sinkAnswer 0 .ok] (fun y => y.enc.state = .complete) = true ∧
    (one done [.command 0 0b10#2 0]).nextMove.isReset = false := by decide

theorem witness_StatusWrittenOnlyOnCompletion :
    after (decBusy .w32 0 28 [0x81#8]) [.srcAnswer 0 .deliver] (fun y => y.dec.status ≠ .ok && y.dec.state = .complete) = true ∧
    after (encBusy .w32 5) [.sinkAnswer 0 .fail] (fun y => y.enc.status ≠ .ok && y.enc.state = .complete) = true ∧
    (one (encBusy .w32 5) [.sinkAnswer 0 .fail]).nextMove.isReset = false := by decide

theorem witness_ResultLifetime : done.dec.state = .complete ∧ done.enc.state = .complete ∧
    after done [.command 0 0b10#2 0] (fun y => y.dec.state = .busy) = true ∧
    after { done with heldDec := some ⟨.w64, 0⟩ } [.wait] (fun y => y.dec.state = .busy) = true ∧
    after done [.wait] (fun y => y.dec = done.dec && y.enc = done.enc) = true ∧
    after done [.command 0 0b00#2 0] (fun y => y.dec = done.dec && y.enc.state = .busy) = true := by decide

theorem witness_OneByteAStep :
    after (decBusy .w32 0 0 [0x81#8, 0x82#8]) [.srcAnswer 0 .deliver] (fun y => y.src = [0x82#8]) = true ∧
    (one done [.srcAnswer 0 .deliver]).nextMove = .srcAnswer 0 .deliver ∧
    (one done [.srcAnswer 0 .deliver]).nextMove.isReset = false := by decide

theorem witness_HostReads : (one done []).instances[0]? = some done ∧
    (one done [.read 0 .decResult]).env = .read 0 .decResult :: [] ∧ done.dec.state = .complete ∧
    done.dec.status = .ok ∧ done.dec.result = some 1 ∧
    ¬(Instance.reset.dec.state = .complete ∧ Instance.reset.dec.status = .ok) ∧
    (one done [.read 0 .encStatus]).env = .read 0 .encStatus :: [] := by decide

/-- An invalid read of each kind (one under the invariant), valid reads that do not stop, the two refusals, and an
ill-formed move. -/
theorem witness_StopsOnlyThere :
    (decBusy .w32 0 0 [0x80#8]).dec.Inv ∧
    faultOf (step (one (decBusy .w32 0 0 [0x80#8]) [.read 0 .decResult])) = some .resultNotValid ∧
    faultOf (step (one Instance.reset [.read 0 .decStatus])) = some .statusNotValid ∧
    faultOf (step (one (encBusy .w32 0) [.read 0 .encStatus])) = some .statusNotValid ∧
    next (step (one Instance.reset [.read 0 .decState])) (fun _ => true) = true ∧
    next (step (one (encBusy .w32 0) [.read 0 .encState])) (fun _ => true) = true ∧
    next (step (one done [.read 0 .decResult])) (fun _ => true) = true ∧
    refusalOf (step (one (decBusy .w32 0 0 []) [.connectSrc 0 [0x01#8]])) = some .streamInterference ∧
    refusalOf (step (one (encBusy .w32 0) [.connectSink 0 []])) = some .streamInterference ∧
    (one Instance.reset [.read 1 .decState]).nextMove.wellFormed 1 = false :=
  ⟨decBusy_inv, by decide⟩

theorem witness_ResetState : (State.resetWith 3).instances[2]? = some Instance.reset := by decide

/-- Both units waiting, each with its request outstanding. -/
def waiting : Instance :=
  { Instance.reset with
    dec := { Decoder.reset with state := .busy, pending := true }
    enc := { Encoder.reset with state := .busy, rem := 5, pending := some 0x05#8 }
    src := [0x01#8] }

/-- The second clause at each of the four values: both requests outstanding, and the stream after the reset. -/
theorem witness_ResetSignal_outcomes :
    after waiting [.reset [⟨false, false⟩]] (fun y => y.src = [0x01#8] && y.sink = []) = true ∧
    after waiting [.reset [⟨true, false⟩]] (fun y => y.src = [] && y.sink = []) = true ∧
    after waiting [.reset [⟨false, true⟩]] (fun y => y.src = [0x01#8] && y.sink = [0x05#8]) = true ∧
    after waiting [.reset [⟨true, true⟩]] (fun y => y.src = [] && y.sink = [0x05#8]) = true := by decide

/-- The hypotheses of both clauses: no request, both, or either one alone outstanding. -/
theorem witness_ResetSignal : (one waiting [.reset []]).env = .reset [] :: [] ∧
    (one waiting [.reset []]).instances[0]? = some waiting ∧ waiting.dec.pending = true ∧
    waiting.enc.pending = some 0x05#8 ∧ done.dec.pending = false ∧ done.enc.pending = none ∧
    { waiting with enc := Encoder.reset }.dec.pending = true ∧ { waiting with enc := Encoder.reset }.enc.pending = none ∧
    { waiting with dec := Decoder.reset }.enc.pending = some 0x05#8 := by decide

theorem witness_InvariantKeptByStep : (one (decBusy .w32 0 0 [0x80#8]) [.srcAnswer 0 .deliver]).Inv ∧
    next (step (one (decBusy .w32 0 0 [0x80#8]) [.srcAnswer 0 .deliver])) (fun _ => true) = true :=
  ⟨⟨by decide, fun x hx => by
    obtain rfl := List.mem_singleton.mp hx
    exact ⟨decBusy_inv, encReset_inv⟩⟩, by decide⟩

theorem witness_InvariantAtReset : 0 < 1 := by decide

/-- The ends of the ranges of R50. -/
theorem witness_AssemblerLines : -(2 ^ 31 : Int) ≤ -2147483648 ∧ (-2147483648 : Int) < 2 ^ 31 ∧
    (2147483647 : Int) < 2 ^ 31 ∧ -(2 ^ 63 : Int) ≤ -9223372036854775808 ∧ (9223372036854775807 : Int) < 2 ^ 63 ∧
    4294967295 < 2 ^ 32 ∧ 2 ^ 32 ≤ 4294967296 ∧ 18446744073709551615 < 2 ^ 64 ∧ 2 ^ 64 ≤ 18446744073709551616 ∧
    (-2147483649 : Int) < -(2 ^ 31 : Int) ∧ (2 ^ 31 : Int) ≤ 2147483648 := by decide

end Sys2Proof.Tests
end

section
/-! Proofs of the statements on the arithmetic of patterns (00_scope.md R4-R7). -/

namespace Sys2Proof.Machine

/-- The rule for reading a bit of the shift: past the top of `v` the right side reads 0, as R5 asks of vacated bits. -/
@[simp] theorem getLsbD_lsr {W : Nat} (v : BitVec W) (n i : Nat) : (lsr v n).getLsbD i = v.getLsbD (n + i) :=
  BitVec.getLsbD_ushiftRight v n i

/-- R5: the vacated bits are 0, whatever the top bit of `v`. -/
theorem getLsbD_lsr_of_vacated {W : Nat} (v : BitVec W) (n i : Nat) (hi : W - n ≤ i) :
    (lsr v n).getLsbD i = false := by
  rw [getLsbD_lsr]
  exact BitVec.getLsbD_of_ge v (n + i) (by omega)

/-- R60 step 2: an accepted byte that is not the last leaves the encoder BUSY, with the shifted value in REM. -/
theorem Encoder.take_ok_more (e : Encoder) (h : fitsSeven e.remaining = false) :
    e.take .ok = { e with rem := zext 64 (lsr e.remaining 7), pending := none } := by
  simp [Encoder.take, h]

/-- Settles O5: the bits of the shift are those of `BitVec`'s logical shift, and the encode step that goes on writes
that shift to REM. -/
theorem logicalShiftRightBits : Obligations.LogicalShiftRightBits := by
  unfold Obligations.LogicalShiftRightBits
  constructor
  · intro W v n i _
    constructor
    · intro _
      rw [getLsbD_lsr, Nat.add_comm]
    · exact getLsbD_lsr_of_vacated v n i
  · intro e more
    rw [Encoder.take_ok_more e more]

end Sys2Proof.Machine
end

section
/-! Proofs of the statements on the registers of a unit (10_state.md R11, R12). -/

namespace Sys2Proof.Machine

/-- The decode step (R52) either goes on, with STATE and STATUS as they were, or completes with one of the decoder's
codes. -/
theorem Decoder.take_state_status (d : Decoder) (a : SrcAnswer) :
    ((d.take a).state = d.state ∧ (d.take a).status = d.status) ∨
    ((d.take a).state = .complete ∧ (d.take a).status ≠ .writeFailure) := by
  cases a with
  | fail => right; simp [Decoder.take]
  | byte b =>
    simp only [Decoder.take, Decoder.takeByte]
    split
    · right; simp
    · split
      · right; simp
      · left; simp

/-- The encode step (R60) either goes on, with STATE and STATUS as they were, or completes with one of the encoder's
codes. -/
theorem Encoder.take_state_status (e : Encoder) (a : SinkAnswer) :
    ((e.take a).state = e.state ∧ (e.take a).status = e.status) ∨
    ((e.take a).state = .complete ∧ ((e.take a).status = .ok ∨ (e.take a).status = .writeFailure)) := by
  cases a with
  | fail => right; simp [Encoder.take]
  | ok =>
    simp only [Encoder.take]
    split
    · right; simp
    · left; simp

/-- R12 for a decoder, in any move but a reset: STATUS stays while the unit does not enter COMPLETE, or the unit enters
COMPLETE with one of its codes. -/
theorem Move.effect_dec_status (m : Move) (n j : Nat) (x : Instance) (hm : m.isReset = false) :
    ((m.effect n j x).dec.status = x.dec.status ∧
      (x.dec.state = .busy → (m.effect n j x).dec.state = .busy)) ∨
    (x.dec.state = .busy ∧ (m.effect n j x).dec.state = .complete ∧ (m.effect n j x).dec.status ≠ .writeFailure) := by
  obtain hy | ⟨-, hy⟩ | ⟨-, -, w, hy⟩ | ⟨hb, -, a, hy⟩ := Move.effect_dec m n j x hm
  · left; simp [hy]
  · left; simp [hy]
  · left; simp [hy]
  · rw [hy]
    obtain ⟨hstate, hstatus⟩ | ⟨hstate, hstatus⟩ := x.dec.take_state_status a
    · exact .inl ⟨hstatus, fun _ => hstate.trans hb⟩
    · exact .inr ⟨hb, hstate, hstatus⟩

/-- R12 for an encoder, in any move but a reset. -/
theorem Move.effect_enc_status (m : Move) (n j : Nat) (x : Instance) (hm : m.isReset = false) :
    ((m.effect n j x).enc.status = x.enc.status ∧
      (x.enc.state = .busy → (m.effect n j x).enc.state = .busy)) ∨
    (x.enc.state = .busy ∧ (m.effect n j x).enc.state = .complete ∧
      ((m.effect n j x).enc.status = .ok ∨ (m.effect n j x).enc.status = .writeFailure)) := by
  obtain hy | ⟨-, hy⟩ | ⟨-, -, w, v, hy⟩ | ⟨hb, -, a, hy⟩ := Move.effect_enc m n j x hm
  · left; simp [hy]
  · left; simp [hy]
  · left; simp [hy]
  · rw [hy]
    obtain ⟨hstate, hstatus⟩ | ⟨hstate, hstatus⟩ := x.enc.take_state_status a
    · exact .inl ⟨hstatus, fun _ => hstate.trans hb⟩
    · exact .inr ⟨hb, hstate, hstatus⟩

/-- What a step makes of an instance, both of them known: the effect of the next move. -/
theorem step_instance {s t : State} {k : Nat} {x y : Instance} (h : step s = .next t)
    (hx : s.instances[k]? = some x) (hy : t.instances[k]? = some y) : y = s.nextMove.effect s.draws k x := by
  have hk := step_next s t h k
  rw [hx, hy] at hk
  exact Option.some.inj hk

/-- Settles O40: each unit's STATUS is followed through the one move of the step (`Move.effect_dec_status`,
`Move.effect_enc_status`); the four codes are those of the model. -/
theorem statusWrittenOnlyOnCompletion : Obligations.StatusWrittenOnlyOnCompletion := by
  unfold Obligations.StatusWrittenOnlyOnCompletion
  refine ⟨?_, rfl, rfl, rfl, rfl⟩
  intro s t k x y hstep hreset hx hy
  obtain rfl := step_instance hstep hx hy
  have hdec := Move.effect_dec_status s.nextMove s.draws k x hreset
  have henc := Move.effect_enc_status s.nextMove s.draws k x hreset
  refine ⟨?_, ?_, ?_, ?_⟩
  · obtain ⟨hsame, -⟩ | ⟨hbusy, hcomplete, -⟩ := hdec
    · exact fun hne => absurd hsame hne
    · exact fun _ => ⟨hbusy, hcomplete⟩
  · obtain ⟨hsame, -⟩ | ⟨hbusy, hcomplete, -⟩ := henc
    · exact fun hne => absurd hsame hne
    · exact fun _ => ⟨hbusy, hcomplete⟩
  · intro hbusy hcomplete
    obtain ⟨-, hstays⟩ | ⟨-, -, hcode⟩ := hdec
    · simp [hstays hbusy] at hcomplete
    · exact hcode
  · intro hbusy hcomplete
    obtain ⟨-, hstays⟩ | ⟨-, -, hcode⟩ := henc
    · simp [hstays hbusy] at hcomplete
    · exact hcode

end Sys2Proof.Machine
end

section
/-! Proofs of the statements on the wire format as functions of byte sequences (30_encoding.md R41, R42). -/

namespace Sys2Proof.Machine

/-! ### The bits of an assembled pattern (R41) -/

/-- Group `i` reaches the value bits [7i+6 : 7i] and no others. -/
theorem getLsbD_shl_dataBits {W : Nat} (g : Byte) (i m : Nat) (hm : m < W) :
    (shl (zext W (dataBits g)) (7 * i)).getLsbD m = (decide (m / 7 = i) && g.getLsbD (m % 7)) := by
  simp only [shl, zext, dataBits, BitVec.getLsbD_shiftLeft, BitVec.getLsbD_setWidth, BitVec.getLsbD_extractLsb',
    Nat.zero_add, hm, decide_true, Bool.true_and]
  by_cases hi : m / 7 = i
  · have hoff : m - 7 * i = m % 7 := by omega
    have hlow : ¬ m < 7 * i := by omega
    have hW : m % 7 < W := by omega
    have h7 : m % 7 < 7 := by omega
    simp [hi, hoff, hlow, hW, h7]
  · have hout : m < 7 * i ∨ ¬ m - 7 * i < 7 := by omega
    rcases hout with hlow | hhigh
    · simp [hi, hlow]
    · simp [hi, hhigh]

theorem getLsbD_assembleFrom (W : Nat) (gs : List Byte) (i m : Nat) (hm : m < W) :
    (assembleFrom W i gs).getLsbD m = (decide (i ≤ m / 7) && ((gs[m / 7 - i]?).getD 0).getLsbD (m % 7)) := by
  induction gs generalizing i with
  | nil => simp [assembleFrom]
  | cons g gs ih =>
    rw [assembleFrom, BitVec.getLsbD_or, getLsbD_shl_dataBits g i m hm, ih]
    rcases Nat.lt_trichotomy (m / 7) i with hlt | heq | hgt
    · simp [Nat.ne_of_lt hlt, Nat.not_le.mpr hlt, Nat.not_le.mpr (Nat.lt_succ_of_lt hlt)]
    · simp [heq]
    · have hidx : m / 7 - i = m / 7 - (i + 1) + 1 := by omega
      simp [Nat.ne_of_gt hgt, Nat.le_of_lt hgt, Nat.succ_le_of_lt hgt, hidx]

theorem getLsbD_assemble (W : Nat) (gs : List Byte) (m : Nat) (hm : m < W) :
    (assemble W gs).getLsbD m = ((gs[m / 7]?).getD 0).getLsbD (m % 7) := by
  simp [assemble, getLsbD_assembleFrom W gs 0 m hm]

theorem assembleFrom_append (W : Nat) (gs hs : List Byte) (i : Nat) :
    assembleFrom W i (gs ++ hs) = assembleFrom W i gs ||| assembleFrom W (i + gs.length) hs := by
  induction gs generalizing i with
  | nil => simp [assembleFrom]
  | cons g gs ih =>
    rw [List.cons_append, assembleFrom, assembleFrom, ih, BitVec.or_assoc, List.length_cons, Nat.add_right_comm,
      Nat.add_assoc]

/-- One more group at the end is one more OR: the decode step's own rule (R52 step 2). -/
theorem assemble_append_singleton (W : Nat) (gs : List Byte) (g : Byte) :
    assemble W (gs ++ [g]) = assemble W gs ||| shl (zext W (dataBits g)) (7 * gs.length) := by
  simp [assemble, assembleFrom_append, assembleFrom]

/-! ### The groups the encoder writes (R41, R60) -/

theorem getLsbD_finalGroup {W : Nat} (u : BitVec W) (m : Nat) (hm : m < 8) :
    (zext 8 u).getLsbD m = u.getLsbD m := by
  simp [zext, hm]

theorem getLsbD_moreByte {W : Nat} (u : BitVec W) (m : Nat) (hm : m < 7) :
    (moreByte (zext 7 u)).getLsbD m = u.getLsbD m := by
  have h80 : ∀ i, i < 7 → (0x80#8).getLsbD i = false := by decide
  have h8 : m < 8 := by omega
  rw [moreByte, BitVec.getLsbD_or, h80 m hm]
  simp [zext, hm, h8]

theorem getLsbD_moreByte_seven (d : BitVec 7) : (moreByte d).getLsbD 7 = true := by
  simp [moreByte]

/-- R60 step 1: what fits in 7 bits is the last group. -/
theorem groupsUpTo_of_fits {W : Nat} (fuel : Nat) (u : BitVec W) (h : fitsSeven u = true) :
    groupsUpTo (fuel + 1) u = [zext 8 u] :=
  if_pos h

/-- R60 step 2: what does not fit gives one group and goes on with the shifted value. -/
theorem groupsUpTo_of_not_fits {W : Nat} (fuel : Nat) (u : BitVec W) (h : fitsSeven u = false) :
    groupsUpTo (fuel + 1) u = moreByte (zext 7 u) :: groupsUpTo fuel (lsr u 7) :=
  if_neg (by simp [h])

theorem groupsUpTo_ne_nil {W : Nat} (fuel : Nat) (u : BitVec W) : groupsUpTo (fuel + 1) u ≠ [] := by
  cases hfit : fitsSeven u with
  | true => simp [groupsUpTo_of_fits fuel u hfit]
  | false => simp [groupsUpTo_of_not_fits fuel u hfit]

theorem length_groupsUpTo_le {W : Nat} (fuel : Nat) (u : BitVec W) : (groupsUpTo fuel u).length ≤ fuel := by
  induction fuel generalizing u with
  | zero => simp [groupsUpTo]
  | succ n ih =>
    cases hfit : fitsSeven u with
    | true => simp [groupsUpTo_of_fits n u hfit]
    | false => simpa [groupsUpTo_of_not_fits n u hfit] using ih (lsr u 7)

/-- R41 read the other way: group `i` holds the data bits [7i+6 : 7i], whatever the number of groups allowed. -/
theorem getLsbD_groupsUpTo {W : Nat} (fuel : Nat) (u : BitVec W) (i : Nat) (g : Byte)
    (hg : (groupsUpTo fuel u)[i]? = some g) (m : Nat) (hm : m < 7) : g.getLsbD m = u.getLsbD (7 * i + m) := by
  induction fuel generalizing u i with
  | zero => simp [groupsUpTo] at hg
  | succ n ih =>
    cases hfit : fitsSeven u with
    | true =>
      rw [groupsUpTo_of_fits n u hfit] at hg
      obtain ⟨rfl, rfl⟩ : i = 0 ∧ zext 8 u = g := by simpa [List.getElem?_singleton] using hg
      rw [getLsbD_finalGroup u m (by omega), Nat.mul_zero, Nat.zero_add]
    | false =>
      rw [groupsUpTo_of_not_fits n u hfit] at hg
      cases i with
      | zero =>
        obtain rfl : moreByte (zext 7 u) = g := Option.some.inj hg
        rw [getLsbD_moreByte u m hm, Nat.mul_zero, Nat.zero_add]
      | succ i =>
        have hidx : 7 * (i + 1) + m = 7 + (7 * i + m) := by omega
        rw [ih (lsr u 7) i hg, getLsbD_lsr, hidx]

/-- Where the groups allowed have room for every bit of `u`, the steps end by themselves, so that exactly the last group
has C = 0. -/
theorem getLsbD_seven_groupsUpTo {W : Nat} (fuel : Nat) (u : BitVec W) (i : Nat) (g : Byte)
    (hroom : u.toNat < 2 ^ (7 * fuel)) (hg : (groupsUpTo fuel u)[i]? = some g) :
    g.getLsbD 7 = true ↔ i + 1 < (groupsUpTo fuel u).length := by
  induction fuel generalizing u i with
  | zero => simp [groupsUpTo] at hg
  | succ n ih =>
    cases hfit : fitsSeven u with
    | true =>
      rw [groupsUpTo_of_fits n u hfit] at hg ⊢
      obtain ⟨rfl, rfl⟩ : i = 0 ∧ zext 8 u = g := by simpa [List.getElem?_singleton] using hg
      have hC : u.getLsbD 7 = false := Nat.testBit_lt_two_pow (i := 7) ((fitsSeven_iff u).mp hfit)
      rw [getLsbD_finalGroup u 7 (by decide), hC]
      simp
    | false =>
      have hlarge : ¬ u.toNat < 128 := by
        rw [← fitsSeven_iff, hfit]
        decide
      have hshift : (lsr u 7).toNat < 2 ^ (7 * n) := by
        rw [lsr_toNat, Nat.div_lt_iff_lt_mul (by decide), ← Nat.pow_add]
        exact hroom
      rw [groupsUpTo_of_not_fits n u hfit] at hg ⊢
      rw [List.length_cons, Nat.add_lt_add_iff_right]
      cases i with
      | zero =>
        obtain rfl : moreByte (zext 7 u) = g := Option.some.inj hg
        cases n with
        | zero => exact absurd hroom hlarge
        | succ n => simpa [getLsbD_moreByte_seven, List.length_pos_iff] using groupsUpTo_ne_nil n (lsr u 7)
      | succ i => exact ih (lsr u 7) i hshift hg

/-- MAX_GROUPS(W) groups have room for W bits (R2). -/
theorem toNat_lt_maxGroups (w : Width) (u : BitVec w.bits) : u.toNat < 2 ^ (7 * w.maxGroups) :=
  Nat.lt_of_lt_of_le u.isLt (Nat.pow_le_pow_right (by decide) (by cases w <;> decide))

/-- Settles O20: the assembled pattern is read bit by bit (`getLsbD_assemble`), and the encoder's groups group by group
along its steps. -/
theorem groupPlacesItsDataBits : Obligations.GroupPlacesItsDataBits := by
  unfold Obligations.GroupPlacesItsDataBits
  refine ⟨getLsbD_assemble, fun _ _ => rfl, ?_⟩
  intro w u i g hg
  exact ⟨getLsbD_groupsUpTo _ u i g hg, getLsbD_seven_groupsUpTo _ u i g (toNat_lt_maxGroups w u) hg⟩

/-! ### Excess bits (R42) -/

/-- A last group of which `n` bits are left of W counts only with those bits. -/
theorem assemble_append_congr {W n : Nat} {gs : List Byte} {g g' : Byte} (hn : n ≤ 7) (hW : W = 7 * gs.length + n)
    (h : ∀ j, j < n → g.getLsbD j = g'.getLsbD j) : assemble W (gs ++ [g]) = assemble W (gs ++ [g']) := by
  apply BitVec.eq_of_getLsbD_eq
  intro m hm
  rw [getLsbD_assemble W _ m hm, getLsbD_assemble W _ m hm]
  by_cases hlen : m / 7 < gs.length
  · rw [List.getElem?_append_left hlen, List.getElem?_append_left hlen]
  · have hlast : m / 7 = gs.length := by omega
    simpa [hlast] using h (m % 7) (by omega)

/-- Those `n` bits are the top bits of the pattern. -/
theorem extractLsb'_assemble_append {W n : Nat} {gs : List Byte} {g : Byte} (hn : n ≤ 7)
    (hW : W = 7 * gs.length + n) :
    (assemble W (gs ++ [g])).extractLsb' (7 * gs.length) n = g.extractLsb' 0 n := by
  apply BitVec.eq_of_getLsbD_eq
  intro j hj
  have hdiv : (7 * gs.length + j) / 7 = gs.length := by omega
  have hmod : (7 * gs.length + j) % 7 = j := by omega
  rw [BitVec.getLsbD_extractLsb', BitVec.getLsbD_extractLsb', getLsbD_assemble W _ _ (by omega), hdiv, hmod]
  simp

theorem getLsbD_eq_of_and_eq {n : Nat} {a b mask : BitVec n} (h : a &&& mask = b &&& mask) {j : Nat}
    (hj : mask.getLsbD j = true) : a.getLsbD j = b.getLsbD j := by
  simpa [hj] using congrArg (fun v => v.getLsbD j) h

/-- R42 for a last group that starts at value bit `k` and of which the `n` bits of `mask` are left of W. -/
theorem assemble_append_of_and_eq {W k n : Nat} {gs : List Byte} {g g' mask : Byte} (hk : 7 * gs.length = k)
    (hW : W = k + n) (hn : n ≤ 7) (hlow : ∀ j, j < n → mask.getLsbD j = true) (h : g &&& mask = g' &&& mask) :
    assemble W (gs ++ [g]) = assemble W (gs ++ [g']) ∧
    (assemble W (gs ++ [g])).extractLsb' k n = g.extractLsb' 0 n := by
  subst hk
  exact ⟨assemble_append_congr hn hW (fun j hj => getLsbD_eq_of_and_eq h (hlow j hj)),
    extractLsb'_assemble_append hn hW⟩

theorem and_eq_zero_of_getLsbD {n : Nat} {a mask : BitVec n}
    (h : ∀ j, j < n → mask.getLsbD j = true → a.getLsbD j = false) : a &&& mask = 0 := by
  apply BitVec.eq_of_getLsbD_eq
  intro j hj
  cases hmask : mask.getLsbD j with
  | false => simp [hmask]
  | true => simp [h j hj hmask]

/-- The group at the last index has no bit set past the W bits of the operand: its data bits are those of `u`, and no
group follows it. -/
theorem getLsbD_last_encodeGroups (w : Width) (u : BitVec w.bits) (i : Nat) (g : Byte) (hi : i + 1 = w.maxGroups)
    (hg : (encodeGroups w u)[i]? = some g) (m : Nat) (hm : m < 8) (hexcess : w.bits ≤ 7 * i + m) :
    g.getLsbD m = false := by
  have hdata := getLsbD_groupsUpTo _ u i g hg
  have hC : g.getLsbD 7 = true ↔ i + 1 < (encodeGroups w u).length :=
    getLsbD_seven_groupsUpTo _ u i g (toNat_lt_maxGroups w u) hg
  by_cases h7 : m = 7
  · subst h7
    have hlen : (encodeGroups w u).length ≤ w.maxGroups := length_groupsUpTo_le _ u
    have hlast : ¬ g.getLsbD 7 = true := by
      rw [hC]
      omega
    simpa using hlast
  · rw [hdata m (by omega)]
    exact BitVec.getLsbD_of_ge u _ hexcess

/-- Settles O23: the pattern's bits come from the group's low bits (`assemble_append_of_and_eq`), a byte with C = 0
completes with OK whatever its data bits, and the encoder's group at the last index ends where the operand does. -/
theorem excessBitsHaveNoEffect : Obligations.ExcessBitsHaveNoEffect := by
  unfold Obligations.ExcessBitsHaveNoEffect
  refine ⟨?_, ?_, ?_, ?_, ?_⟩
  · intro gs g g' hlen hmask
    exact assemble_append_of_and_eq (by rw [hlen]) rfl (by decide) (by decide) hmask
  · intro gs g g' hlen hmask
    exact assemble_append_of_and_eq (by rw [hlen]) rfl (by decide) (by decide) hmask
  · intro d b hb
    rw [Decoder.take, Decoder.takeByte_final d b hb]
    exact ⟨rfl, rfl⟩
  · intro u g hg
    have hhigh : ∀ j, j < 8 → (0xF0#8).getLsbD j = true → 32 ≤ 7 * 4 + j := by decide
    exact and_eq_zero_of_getLsbD
      (fun j hj hmask => getLsbD_last_encodeGroups .w32 u 4 g rfl hg j hj (hhigh j hj hmask))
  · intro u g hg
    have hhigh : ∀ j, j < 8 → (0xFE#8).getLsbD j = true → 64 ≤ 7 * 9 + j := by decide
    exact and_eq_zero_of_getLsbD
      (fun j hj hmask => getLsbD_last_encodeGroups .w64 u 9 g rfl hg j hj (hhigh j hj hmask))

end Sys2Proof.Machine
end

section
/-! Proofs of the statements on whole decode operations (30_encoding.md R45, 40_decoder.md R52, R58). -/

namespace Sys2Proof.Machine

/-- In the midst of a decode operation of width `w`: the groups `gs` are consumed, ACC holds their pattern, and `bytes`
are still in the source. -/
structure Instance.Consumed (x : Instance) (w : Width) (gs bytes : List Byte) : Prop where
  busy : x.dec.state = .busy
  width : x.dec.w = w
  offset : x.dec.offset.toNat = 7 * gs.length
  acc : zext x.dec.w.bits x.dec.acc = assemble x.dec.w.bits gs
  source : x.src = bytes

/-- The start step (R51) has consumed nothing yet. -/
theorem Instance.consumed_start (x : Instance) (w : Width) (bytes : List Byte) (h : x.src = bytes) :
    Instance.Consumed { x with dec := x.dec.start w, heldDec := none } w [] bytes where
  busy := rfl
  width := rfl
  offset := rfl
  acc := by simp [assemble, assembleFrom, zext]
  source := h

theorem Instance.srcAnswer_deliver (x : Instance) (b : Byte) (bytes : List Byte) (hb : x.dec.state = .busy)
    (hs : x.src = b :: bytes) : x.srcAnswer .deliver = { x with dec := x.dec.takeByte b, src := bytes } := by
  simp [Instance.srcAnswer, hb, hs, srcRead, Decoder.take]

theorem Instance.Consumed.accumulate {x : Instance} {w : Width} {gs bytes : List Byte} (h : x.Consumed w gs bytes)
    (b : Byte) : x.dec.accumulate b = assemble x.dec.w.bits (gs ++ [b]) := by
  rw [Decoder.accumulate, h.acc, h.offset, assemble_append_singleton]

/-- One decode step on a byte with C = 1, at an index before the last. -/
theorem Instance.Consumed.more {x : Instance} {w : Width} {gs bytes : List Byte} {b : Byte}
    (h : x.Consumed w gs (b :: bytes)) (hb : b.getLsbD 7 = true) (hlen : gs.length + 1 < w.maxGroups) :
    (x.srcAnswer .deliver).Consumed w (gs ++ [b]) bytes := by
  obtain ⟨hstep, hoffset⟩ := x.dec.takeByte_more b gs.length hb (by rwa [h.width]) h.offset
  rw [x.srcAnswer_deliver b bytes h.busy h.source, hstep]
  constructor
  case busy => exact h.busy
  case width => exact h.width
  case offset => simpa using hoffset
  case acc => exact (zext_zext _ _).trans (h.accumulate b)
  case source => rfl

/-- Any number of decode steps on bytes with C = 1, all at indexes before the last. -/
theorem Instance.Consumed.moreAll {x : Instance} {w : Width} {gs hs bytes : List Byte}
    (h : x.Consumed w gs (hs ++ bytes)) (hC : ∀ b ∈ hs, b.getLsbD 7 = true)
    (hlen : gs.length + hs.length < w.maxGroups) :
    ((List.replicate hs.length SrcReply.deliver).foldl Instance.srcAnswer x).Consumed w (gs ++ hs) bytes := by
  induction hs generalizing x gs with
  | nil => simpa using h
  | cons b hs ih =>
    obtain ⟨hb, hC⟩ := List.forall_mem_cons.mp hC
    rw [List.length_cons] at hlen
    simpa [List.replicate_succ] using
      ih (h.more hb (by omega)) hC (by rw [List.length_append, List.length_singleton]; omega)

/-- The decode step on a byte with C = 0 ends the operation with the pattern of all its groups. -/
theorem Instance.Consumed.final {x : Instance} {w : Width} {gs bytes : List Byte} {g : Byte}
    (h : x.Consumed w gs (g :: bytes)) (hg : g.getLsbD 7 = false) (hlen : gs.length < w.maxGroups) :
    (x.srcAnswer .deliver).dec.state = .complete ∧ (x.srcAnswer .deliver).dec.status = .ok ∧
    (x.srcAnswer .deliver).dec.result = some (sext 64 (assemble w.bits (gs ++ [g]))) ∧
    (x.srcAnswer .deliver).src = bytes ∧ (x.srcAnswer .deliver).dec.offset.toNat = 7 * (gs.length + 1) := by
  have hmax : w.maxGroups ≤ 10 := by cases w <;> decide
  have hoffset : (x.dec.offset + 7#7).toNat = 7 * (gs.length + 1) := by
    rw [BitVec.toNat_add, h.offset]
    simp
    omega
  rw [x.srcAnswer_deliver g bytes h.busy h.source, x.dec.takeByte_final g hg, h.accumulate g, h.width]
  exact ⟨rfl, rfl, rfl, rfl, hoffset⟩

/-- RESULT read as signed on the 64-bit bus is the value of the W-bit pattern (R4, R13). -/
theorem toSigned_sext (w : Width) (u : BitVec w.bits) : toSigned (sext 64 u) = toSigned u :=
  BitVec.toInt_signExtend_of_le (by cases w <;> decide)

/-- Settles O27: silences apart, the operation is its start step and the fold of the source's answers
(`run_decode_silent`); `Consumed` holds after the start step and is kept by every byte with C = 1, and the byte with
C = 0 ends the operation. -/
theorem acceptedSequenceDecodes : Obligations.AcceptedSequenceDecodes := by
  unfold Obligations.AcceptedSequenceDecodes
  intro w value s x k gs g bytes hx hready hheld hsrc hlen hC hg hspoken
  obtain ⟨t, y, hrun, -, hy, ⟨hysrc, hydec⟩, -⟩ :=
    run_decode_silent k w value _ [] s.env s x x hx hready hheld (DecSim.refl x) (List.append_nil _).symm hspoken
  have hmid := (x.consumed_start w _ hsrc).moreAll hC (by simpa using hlen)
  obtain ⟨hstate, hstatus, hresult, hrest, hoffset⟩ := hmid.final hg hlen
  rw [List.replicate_succ', List.foldl_append] at hysrc hydec
  refine ⟨t, y, sext 64 (assemble w.bits (gs ++ [g])), hrun, hy, ?_, ?_, ?_, toSigned_sext w _, ?_, ?_⟩
  · rw [hydec]; exact hstate
  · rw [hydec]; exact hstatus
  · rw [hydec]; exact hresult
  · rw [hysrc]; exact hrest
  · rw [hydec]; exact hoffset

end Sys2Proof.Machine
end

section
/-! Proofs of the statements on the steps of a decoder (40_decoder.md R51, R52). -/

namespace Sys2Proof.Machine

/-! ### The start step (R51) -/

/-- A decode command of either width, presented at the selected port to a decoder that is not BUSY. -/
theorem exec_decodeOp_ready (s : State) (x : Instance) (w : Width) (value : Word)
    (hx : s.instances[s.sel]? = some x) (hready : x.dec.state ≠ .busy) :
    exec (decodeCommand (decodeOp w) value) s =
      .next (s.withInstance s.sel { x with dec := x.dec.start w, heldDec := none }) := by
  rw [exec_of_instance _ s x hx, x.present_dec w value hready]
  rfl

theorem UnitState.ne_busy_of_idle_or_complete {st : UnitState} (h : st = .idle ∨ st = .complete) : st ≠ .busy := by
  rcases h with rfl | rfl <;> decide

/-- Settles O8: both commands are the start step of a ready decoder (`exec_decodeOp_ready`), after which the host
holds no command. -/
theorem decodeCommandStarts : Obligations.DecodeCommandStarts := by
  unfold Obligations.DecodeCommandStarts
  intro s x value hx hstate
  have hready := UnitState.ne_busy_of_idle_or_complete hstate
  constructor
  · exact ⟨none, exec_decodeOp_ready s x .w32 value hx hready⟩
  · exact ⟨none, exec_decodeOp_ready s x .w64 value hx hready⟩

/-! ### The decode step (R52) -/

/-- The data bits of a byte, widened, are the byte with C masked off. -/
theorem zext_dataBits (W : Nat) (b : Byte) : zext W (dataBits b) = (b &&& 0x7F#8).setWidth W := by
  have hmask : ∀ i, i < 8 → (0x7F#8).getLsbD i = decide (i < 7) := by decide
  apply BitVec.eq_of_getLsbD_eq
  intro i hi
  by_cases h8 : i < 8
  · simp [zext, dataBits, hi, hmask i h8, Bool.and_comm]
  · have h7 : ¬ i < 7 := by omega
    simp [zext, dataBits, h7, BitVec.getLsbD_of_ge b i (by omega)]

/-- R52 step 5: C = 1 and OFFSET has reached W, whatever OFFSET was before. -/
theorem Decoder.takeByte_of_full (d : Decoder) (b : Byte) (hb : b.getLsbD 7 = true)
    (hfull : offsetFull d.w (d.offset + 7#7) = true) :
    d.takeByte b = { d with
      acc := zext 64 (d.accumulate b), offset := d.offset + 7#7, pending := false
      state := .complete, status := .overlong, result := none } := by
  simp only [Decoder.takeByte, continues, hb]
  simp [hfull, Decoder.complete]

/-- R52 step 6: C = 1 and OFFSET is below W, so the operation goes on. -/
theorem Decoder.takeByte_of_not_full (d : Decoder) (b : Byte) (hb : b.getLsbD 7 = true)
    (hfull : offsetFull d.w (d.offset + 7#7) = false) :
    d.takeByte b = { d with
      acc := zext 64 (d.accumulate b), offset := d.offset + 7#7, pending := false } := by
  simp only [Decoder.takeByte, continues, hb]
  simp [hfull]

/-- R52 steps 2 to 6 for a BUSY decoder of width `w`, register by register. -/
theorem Decoder.takeByte_busy (d : Decoder) (w : Width) (b : Byte) (hbusy : d.state = .busy) (hw : d.w = w) :
    let acc : BitVec w.bits := d.acc.setWidth w.bits ||| ((b &&& 0x7F#8).setWidth w.bits <<< d.offset.toNat)
    let offset := d.offset + 7
    d.takeByte b = { d with
      acc := acc.setWidth 64, offset := offset, pending := false
      result := if b.getLsbD 7 = false then some (acc.signExtend 64)
        else if w.bits ≤ offset.toNat then none else d.result
      state := if b.getLsbD 7 = false ∨ w.bits ≤ offset.toNat then .complete else .busy
      status := if b.getLsbD 7 = false then .ok else if w.bits ≤ offset.toNat then .overlong else d.status } := by
  subst hw
  intro acc offset
  have hacc : d.accumulate b = acc := by
    rw [Decoder.accumulate, zext_dataBits]
    rfl
  cases hb : b.getLsbD 7 with
  | false =>
    rw [d.takeByte_final b hb, hacc]
    simp [zext, sext, offset]
  | true =>
    by_cases hfull : d.w.bits ≤ offset.toNat
    · rw [d.takeByte_of_full b hb (decide_eq_true hfull), hacc]
      simp only [hfull, or_true, if_true, if_false, reduceCtorEq]
      rfl
    · rw [d.takeByte_of_not_full b hb (decide_eq_false hfull), hacc]
      simp only [hfull, or_false, if_false, reduceCtorEq, ← hbusy]
      rfl

/-- R27, R52 step 1: a `Fail` consumes nothing and ends the operation. -/
theorem Instance.srcAnswer_fail (x : Instance) (hbusy : x.dec.state = .busy) :
    x.srcAnswer .fail = { x with
      dec := { x.dec with pending := false, result := none, state := .complete, status := .readFailure } } := by
  simp [Instance.srcAnswer, hbusy, srcRead, Decoder.take, Decoder.complete]

/-- R30: a silence shows the read request of a BUSY decoder, whatever the host holds. -/
theorem Instance.wait_dec_busy (x : Instance) (hbusy : x.dec.state = .busy) :
    x.wait.dec = { x.dec with pending := true } := by
  rw [Instance.wait_dec]
  cases x.heldDec with
  | none => exact x.dec.wait_busy hbusy
  | some c => exact if_pos hbusy

/-- The step in which the source of instance `k` answers. -/
theorem step_srcAnswer (s : State) (k : Nat) (x : Instance) (r : SrcReply) (rest : List Move)
    (hx : s.instances[k]? = some x) (henv : s.env = .srcAnswer k r :: rest) :
    step s = .next (s.after rest k (x.srcAnswer r)) := by
  rw [step_cons s _ rest henv]
  exact State.update_eq { s with env := rest } k _ x hx

/-- The step in which a BUSY decoder consumes the byte `b`. -/
theorem step_deliver (s : State) (k : Nat) (x : Instance) (b : Byte) (bs : List Byte) (rest : List Move)
    (hx : s.instances[k]? = some x) (hbusy : x.dec.state = .busy) (henv : s.env = .srcAnswer k .deliver :: rest)
    (hsrc : x.src = b :: bs) :
    step s = .next (s.after rest k { x with dec := x.dec.takeByte b, src := bs }) := by
  rw [step_srcAnswer s k x .deliver rest hx henv, x.srcAnswer_deliver b bs hbusy hsrc]

/-- Settles O14: a silence shows the request (`Instance.wait_dec_busy`), an answer of the source is the decode step
(`step_srcAnswer`), and a byte's effect on the registers is the same rule for both widths (`Decoder.takeByte_busy`). -/
theorem decodeStepOutcome : Obligations.DecodeStepOutcome := by
  unfold Obligations.DecodeStepOutcome
  intro s k x rest hx hbusy
  refine ⟨?silent, ?fail, ?byte32, ?byte64⟩
  case silent =>
    intro henv
    obtain ⟨t, hstep, ht, hy⟩ := step_silent s rest k x henv hx
    exact ⟨t, x.wait, true, hstep, ht, hy, x.wait_src, x.wait_dec_busy hbusy⟩
  case fail =>
    intro henv
    rw [step_srcAnswer s k x .fail rest hx henv, x.srcAnswer_fail hbusy]
  case byte32 =>
    intro b bs henv hsrc hw
    rw [step_deliver s k x b bs rest hx hbusy henv hsrc, x.dec.takeByte_busy .w32 b hbusy hw]
  case byte64 =>
    intro b bs henv hsrc hw
    rw [step_deliver s k x b bs rest hx hbusy henv hsrc, x.dec.takeByte_busy .w64 b hbusy hw]
    simp only [Width.bits, BitVec.setWidth_eq, BitVec.signExtend_eq]

end Sys2Proof.Machine
end

section
/-! Proofs of the statements on the steps of an encoder (41_encoder.md R59, R60). -/

namespace Sys2Proof.Machine

/-! ### The start step (R59) -/

/-- An encode command of either width, presented at the selected port to an encoder that is not BUSY. -/
theorem exec_encodeOpOf_ready (s : State) (x : Instance) (w : Width) (value : Word)
    (hx : s.instances[s.sel]? = some x) (hready : x.enc.state ≠ .busy) :
    exec (decodeCommand (encodeOpOf w) value) s =
      .next (s.withInstance s.sel { x with enc := x.enc.start w value, heldEnc := none }) := by
  rw [exec_of_instance _ s x hx, x.present_enc w value hready]
  rfl

/-- R48: of VALUE the narrow operand keeps the bits [31:0]. -/
theorem operand_w32 (value : Word) : operand .w32 value = value &&& 0xFFFFFFFF#64 := by
  apply BitVec.eq_of_toNat_eq
  have hmask := Nat.and_two_pow_sub_one_eq_mod value.toNat 32
  simp only [operand, zext, BitVec.toNat_setWidth, BitVec.toNat_and, BitVec.toNat_ofNat]
  norm_num at hmask ⊢
  omega

theorem operand_w64 (value : Word) : operand .w64 value = value :=
  zext_zext .w64 value

/-- Settles O9: both commands are the start step of a ready encoder (`exec_encodeOpOf_ready`), with the operand of the
width in REM. -/
theorem encodeCommandStarts : Obligations.EncodeCommandStarts := by
  unfold Obligations.EncodeCommandStarts
  intro s x value hx hstate
  have hready := UnitState.ne_busy_of_idle_or_complete hstate
  rw [← operand_w32 value]
  refine ⟨⟨none, exec_encodeOpOf_ready s x .w32 value hx hready⟩, none, ?_⟩
  have hstart := exec_encodeOpOf_ready s x .w64 value hx hready
  rwa [Encoder.start, operand_w64] at hstart

/-! ### The encode step (R60) -/

/-- R60 steps 1 and 2: the byte written for what remains of the operand. -/
def groupOf {W : Nat} (r : BitVec W) : Byte :=
  if fitsSeven r then zext 8 r else moreByte (zext 7 r)

theorem Encoder.formed_eq_groupOf (e : Encoder) : e.formed = groupOf e.remaining := rfl

/-- The test of R60 step 1 as the rule writes it. -/
theorem fitsSeven_iff_and_not_mask {W : Nat} (r : BitVec W) :
    fitsSeven r = true ↔ r &&& ~~~(0x7F#8).setWidth W = 0 :=
  beq_iff_eq

/-- The data bits of a value are the value with everything above bit 6 masked off. -/
theorem zext_eight_zext_seven {W : Nat} (r : BitVec W) :
    zext 8 (zext 7 r) = (r &&& (0x7F#8).setWidth W).setWidth 8 := by
  have hmask : ∀ i, (hi : i < 8) → (0x7F#8)[i] = decide (i < 7) := by decide
  apply BitVec.eq_of_getLsbD_eq
  intro i hi
  by_cases hW : i < W
  · simp [zext, hi, hW, hmask i hi, Bool.and_comm]
  · simp [zext, BitVec.getLsbD_of_ge r i (by omega)]

/-- The byte of R60 as the rule writes it. -/
theorem groupOf_eq_masked {W : Nat} (r : BitVec W) :
    groupOf r = if r &&& ~~~(0x7F#8).setWidth W = 0 then r.setWidth 8
      else 0x80#8 ||| (r &&& (0x7F#8).setWidth W).setWidth 8 := by
  simp only [groupOf, fitsSeven_iff_and_not_mask, moreByte, zext_eight_zext_seven]
  rfl

/-- R60 step 1: the byte accepted was the last. -/
theorem Encoder.take_ok_last (e : Encoder) (h : fitsSeven e.remaining = true) :
    e.take .ok = { e with pending := none, state := .complete, status := .ok } := by
  simp [Encoder.take, h, Encoder.complete]

/-- R60 steps 1 and 2 for an accepted byte, register by register. -/
theorem Encoder.take_ok_eq_masked (e : Encoder) :
    e.take .ok =
      if e.remaining &&& ~~~(0x7F#8).setWidth e.w.bits = 0 then
        { e with pending := none, state := .complete, status := .ok }
      else { e with pending := none, rem := (e.remaining >>> 7).setWidth 64 } := by
  simp only [← fitsSeven_iff_and_not_mask]
  cases hfit : fitsSeven e.remaining with
  | true => rw [e.take_ok_last hfit]; rfl
  | false => rw [e.take_ok_more hfit]; rfl

/-- R20: with no byte outstanding, or the one the step forms, that one is on offer. -/
theorem Encoder.offered_eq_formed (e : Encoder) (h : e.pending = none ∨ e.pending = some e.formed) :
    e.offered = e.formed := by
  rcases h with h | h <;> simp [Encoder.offered, h]

/-- R28, R60: an `Ok` appends the byte on offer and takes the encode step. -/
theorem Instance.sinkAnswer_ok (x : Instance) (hbusy : x.enc.state = .busy) :
    x.sinkAnswer .ok = { x with enc := x.enc.take .ok, sink := x.sink ++ [x.enc.offered] } :=
  if_pos hbusy

/-- R28, R60: a `Fail` appends nothing and ends the operation. -/
theorem Instance.sinkAnswer_fail (x : Instance) (hbusy : x.enc.state = .busy) :
    x.sinkAnswer .fail =
      { x with enc := { x.enc with pending := none, state := .complete, status := .writeFailure } } :=
  if_pos hbusy

/-- R30: a silence shows the byte a BUSY encoder offers, whatever the host holds. -/
theorem Instance.wait_enc_busy (x : Instance) (hbusy : x.enc.state = .busy) :
    x.wait.enc = { x.enc with pending := some x.enc.offered } := by
  rw [Instance.wait_enc]
  cases x.heldEnc with
  | none => exact x.enc.wait_busy hbusy
  | some c => exact if_pos hbusy

/-- The step in which the sink of instance `k` answers. -/
theorem step_sinkAnswer (s : State) (k : Nat) (x : Instance) (a : SinkAnswer) (rest : List Move)
    (hx : s.instances[k]? = some x) (henv : s.env = .sinkAnswer k a :: rest) :
    step s = .next (s.after rest k (x.sinkAnswer a)) := by
  rw [step_cons s _ rest henv]
  exact State.update_eq { s with env := rest } k _ x hx

/-- The step in which the sink of a BUSY encoder of width `w` accepts the byte that the encode step forms. -/
theorem step_sinkAnswer_ok (s : State) (k : Nat) (x : Instance) (w : Width) (rest : List Move)
    (hx : s.instances[k]? = some x) (hbusy : x.enc.state = .busy) (henv : s.env = .sinkAnswer k .ok :: rest)
    (hw : x.enc.w = w) :
    let r : BitVec w.bits := x.enc.rem.setWidth w.bits
    let mask : BitVec w.bits := (0x7F#8).setWidth w.bits
    let b : Byte := if r &&& ~~~mask = 0 then r.setWidth 8 else 0x80#8 ||| (r &&& mask).setWidth 8
    x.enc.pending = none ∨ x.enc.pending = some b →
    step s = .next (s.after rest k { x with
      sink := x.sink ++ [b]
      enc := if r &&& ~~~mask = 0 then { x.enc with pending := none, state := .complete, status := .ok }
        else { x.enc with pending := none, rem := (r >>> 7).setWidth 64 } }) := by
  subst hw
  intro r mask b hpending
  have hformed : x.enc.formed = b := x.enc.formed_eq_groupOf.trans (groupOf_eq_masked r)
  rw [← hformed] at hpending ⊢
  rw [step_sinkAnswer s k x .ok rest hx henv, x.sinkAnswer_ok hbusy, x.enc.offered_eq_formed hpending,
    x.enc.take_ok_eq_masked]
  rfl

/-- Settles O17: a silence shows the byte on offer (`Instance.wait_enc_busy`), a `Fail` is `Instance.sinkAnswer_fail`,
and an accepted byte has the same rule for both widths (`step_sinkAnswer_ok`). -/
theorem encodeStepOutcome : Obligations.EncodeStepOutcome := by
  unfold Obligations.EncodeStepOutcome
  intro s k x rest hx hbusy
  refine ⟨?silent, ?fail, ?accept32, ?accept64⟩
  case silent =>
    intro henv
    obtain ⟨t, hstep, ht, hy⟩ := step_silent s rest k x henv hx
    exact ⟨t, x.wait, some x.enc.offered, hstep, ht, hy, x.wait_sink, x.wait_enc_busy hbusy⟩
  case fail =>
    intro henv
    rw [step_sinkAnswer s k x .fail rest hx henv, x.sinkAnswer_fail hbusy]
  case accept32 =>
    intro henv hw
    exact step_sinkAnswer_ok s k x .w32 rest hx hbusy henv hw
  case accept64 =>
    intro henv hw
    have hmask : (0x7F#8).setWidth 64 = 0x7F#64 := rfl
    have hstep := step_sinkAnswer_ok s k x .w64 rest hx hbusy henv hw
    simpa only [Width.bits, BitVec.setWidth_eq, hmask] using hstep

end Sys2Proof.Machine
end

section
/-! Proofs of the statements on whole encode operations (30_encoding.md R44, 41_encoder.md R61 to R65). -/

namespace Sys2Proof.Machine

/-! ### The length of a pattern in bits and in groups (R44) -/

theorem bitLen_le_iff {W : Nat} (u : BitVec W) (m : Nat) : bitLen u ≤ m ↔ u.toNat < 2 ^ m := by
  unfold bitLen
  split
  · simp [*]
  · have hne : u.toNat ≠ 0 := by simpa [← BitVec.toNat_inj] using ‹¬ u = 0›
    rw [Nat.succ_le_iff, Nat.log2_lt hne]

theorem bitLen_lsr {W : Nat} (u : BitVec W) (n : Nat) : bitLen (lsr u n) = bitLen u - n := by
  apply eq_of_forall_ge_iff
  intro m
  rw [Nat.sub_le_iff_le_add, bitLen_le_iff, bitLen_le_iff, lsr_toNat, Nat.div_lt_iff_lt_mul (Nat.two_pow_pos n),
    Nat.pow_add]

theorem fitsSeven_iff_bitLen {W : Nat} (u : BitVec W) : fitsSeven u = true ↔ bitLen u ≤ 7 := by
  rw [fitsSeven_iff, bitLen_le_iff]
  rfl

/-- Before the last group, what remains does not fit in 7 bits. -/
theorem fitsSeven_lsr_of_lt {W : Nat} (u : BitVec W) (j : Nat) (hj : j + 1 < groupLength u) :
    fitsSeven (lsr u (7 * j)) = false := by
  rw [← Bool.not_eq_true, fitsSeven_iff_bitLen, bitLen_lsr]
  unfold groupLength at hj
  omega

/-- R63: L_W(u) is at most MAX_GROUPS(W). -/
theorem groupLength_le_maxGroups (w : Width) (u : BitVec w.bits) : groupLength u ≤ w.maxGroups := by
  have hbits : bitLen u ≤ w.bits := (bitLen_le_iff u _).mpr u.isLt
  unfold groupLength
  cases w <;> simp only [Width.bits, Width.maxGroups] at hbits ⊢ <;> omega

theorem length_groupsUpTo {W : Nat} (fuel : Nat) (u : BitVec W) :
    (groupsUpTo fuel u).length = min fuel (groupLength u) := by
  induction fuel generalizing u with
  | zero => simp [groupsUpTo]
  | succ n ih =>
    have hseven := fitsSeven_iff_bitLen u
    cases hfit : fitsSeven u with
    | true =>
      have hlen := hseven.mp hfit
      rw [groupsUpTo_of_fits n u hfit, List.length_singleton, groupLength]
      omega
    | false =>
      have hlen : ¬ bitLen u ≤ 7 := by simpa [hfit] using hseven
      rw [groupsUpTo_of_not_fits n u hfit, List.length_cons, ih, groupLength, groupLength, bitLen_lsr]
      omega

/-- R44: the encoder's sequence has L_W(u) groups. -/
theorem length_encodeGroups (w : Width) (u : BitVec w.bits) : (encodeGroups w u).length = groupLength u := by
  rw [encodeGroups, length_groupsUpTo, Nat.min_eq_right (groupLength_le_maxGroups w u)]

/-! ### The groups one by one -/

theorem lsr_lsr {W : Nat} (u : BitVec W) (m n : Nat) : lsr (lsr u m) n = lsr u (m + n) :=
  (BitVec.shiftRight_add u m n).symm

theorem groupsUpTo_head {W : Nat} (fuel : Nat) (u : BitVec W) : (groupsUpTo (fuel + 1) u)[0]? = some (groupOf u) := by
  cases hfit : fitsSeven u <;> simp [groupsUpTo, groupOf, hfit]

/-- R60: group `j` is the byte formed from what remains after `j` shifts. -/
theorem getElem?_groupsUpTo {W : Nat} (fuel : Nat) (u : BitVec W) (j : Nat) (hj : j < (groupsUpTo fuel u).length) :
    (groupsUpTo fuel u)[j]? = some (groupOf (lsr u (7 * j))) := by
  induction fuel generalizing u j with
  | zero => simp [groupsUpTo] at hj
  | succ n ih =>
    cases j with
    | zero => simpa [lsr] using groupsUpTo_head n u
    | succ j =>
      cases hfit : fitsSeven u with
      | true => simp [groupsUpTo_of_fits n u hfit] at hj
      | false =>
        rw [groupsUpTo_of_not_fits n u hfit] at hj ⊢
        rw [List.getElem?_cons_succ, ih (lsr u 7) j (Nat.succ_lt_succ_iff.mp hj), lsr_lsr, Nat.mul_succ,
          Nat.add_comm 7]

theorem take_succ_encodeGroups (w : Width) (u : BitVec w.bits) (j : Nat) (hj : j < groupLength u) :
    (encodeGroups w u).take (j + 1) = (encodeGroups w u).take j ++ [groupOf (lsr u (7 * j))] := by
  rw [← length_encodeGroups] at hj
  rw [List.take_add_one, encodeGroups, getElem?_groupsUpTo _ u j hj, Option.toList_some]

/-! ### The encode steps of an operation -/

/-- In the midst of an encode operation of width `w` on the pattern `u`: the sink, which held `before`, has accepted the
first `j` groups, REM holds what remains (R19), and no byte shows yet. -/
structure Instance.Written (x : Instance) (w : Width) (u : BitVec w.bits) (before : List Byte) (j : Nat) : Prop where
  busy : x.enc.state = .busy
  width : x.enc.w = w
  pending : x.enc.pending = none
  rem : x.enc.rem = zext 64 (lsr u (7 * j))
  sink : x.sink = before ++ (encodeGroups w u).take j

/-- The start step (R59) has written nothing yet. -/
theorem Instance.written_start (x : Instance) (w : Width) (value : Word) (hpending : x.enc.pending = none) :
    Instance.Written { x with enc := x.enc.start w value, heldEnc := none } w (value.setWidth w.bits) x.sink 0 where
  busy := rfl
  width := rfl
  pending := hpending
  rem := rfl
  sink := (List.append_nil _).symm

/-- The byte on offer is group `j`. -/
theorem Instance.Written.offered {x : Instance} {w : Width} {u : BitVec w.bits} {before : List Byte} {j : Nat}
    (h : x.Written w u before j) : x.enc.offered = groupOf (lsr u (7 * j)) := by
  obtain ⟨-, rfl, hpending, hrem, -⟩ := h
  rw [x.enc.offered_eq_formed (.inl hpending), Encoder.formed_eq_groupOf, Encoder.remaining, hrem, zext_zext]

/-- An accepted byte that is not the last group. -/
theorem Instance.Written.more {x : Instance} {w : Width} {u : BitVec w.bits} {before : List Byte} {j : Nat}
    (h : x.Written w u before j) (hj : j + 1 < groupLength u) : (x.sinkAnswer .ok).Written w u before (j + 1) := by
  have hoffered := h.offered
  obtain ⟨hbusy, rfl, hpending, hrem, hsink⟩ := h
  have hremaining : x.enc.remaining = lsr u (7 * j) := by rw [Encoder.remaining, hrem, zext_zext]
  have hmore : fitsSeven x.enc.remaining = false := by rw [hremaining, fitsSeven_lsr_of_lt u j hj]
  rw [x.sinkAnswer_ok hbusy, x.enc.take_ok_more hmore, hremaining, hoffered, lsr_lsr]
  constructor
  case busy => exact hbusy
  case width => rfl
  case pending => rfl
  case rem => rfl
  case sink => rw [take_succ_encodeGroups _ u j (by omega), ← List.append_assoc, ← hsink]

/-- Any number of accepted bytes short of the last group. -/
theorem Instance.Written.moreAll {x : Instance} {w : Width} {u : BitVec w.bits} {before : List Byte}
    (h : x.Written w u before 0) (j : Nat) (hj : j < groupLength u) :
    ((List.replicate j SinkAnswer.ok).foldl Instance.sinkAnswer x).Written w u before j := by
  induction j with
  | zero => exact h
  | succ j ih =>
    rw [List.replicate_succ', List.foldl_append]
    exact (ih (by omega)).more hj

/-- Settles O32: silences apart, the operation is its start step and the fold of the sink's answers
(`run_encode_silent`); `Written` holds after the start step and is kept by every `Ok` before the last group, and the
`Fail` then leaves the sink as it is. -/
theorem writeFailureLeavesPrefix : Obligations.WriteFailureLeavesPrefix := by
  unfold Obligations.WriteFailureLeavesPrefix
  intro w value s x k j hx hready hpending hheld hj hspoken
  obtain ⟨t, y, hrun, -, hy, ⟨hysink, hyenc, -⟩, -⟩ :=
    run_encode_silent k w value _ [] s.env s x x hx hready hpending hheld rfl rfl (List.append_nil _).symm hspoken
  have hmid := (x.written_start w value hpending).moreAll j hj
  rw [List.foldl_append, List.foldl_cons, List.foldl_nil, Instance.sinkAnswer_fail _ hmid.busy] at hysink hyenc
  refine ⟨t, y, hrun, hy, ?_, ?_, hysink.trans hmid.sink, ?_⟩
  · rw [hyenc]
  · rw [hyenc]
  · rw [List.length_take, length_encodeGroups, Nat.min_eq_left hj.le]

end Sys2Proof.Machine
end

section
/-! Proof of the statement on the order of the checks (60_exceptions.md R72). -/

namespace Sys2Proof.Machine

/-- The first check of a decode step: a `Fail` ends the operation, whatever OFFSET is. -/
theorem Decoder.take_fail (d : Decoder) :
    d.take .fail = { d with pending := false, result := none, state := .complete, status := .readFailure } := rfl

/-- The one check of an encode step: a `Fail` ends the operation. -/
theorem Encoder.take_fail (e : Encoder) :
    e.take .fail = { e with pending := none, state := .complete, status := .writeFailure } := rfl

/-- Settles O16: each check is the rule of its own case of the decode step (`Decoder.take_fail`,
`Decoder.takeByte_final`, `Decoder.takeByte_over`, `Decoder.takeByte_more`); that of C = 0 asks nothing of OFFSET, so it
comes before Overlong also at the last index. An accepted byte ends the encode operation or goes on as
`fitsSeven` says. -/
theorem checkOrder : Obligations.CheckOrder := by
  unfold Obligations.CheckOrder
  refine ⟨?decodeStep, ?encodeStep⟩
  case decodeStep =>
    intro d j hbusy _ hoffset
    refine ⟨by simp [d.take_fail], fun b => ⟨?final, ?last, ?more⟩⟩
    case final =>
      intro hC
      simp [Decoder.take, d.takeByte_final b hC]
    case last =>
      intro hC hj
      obtain ⟨hstep, -⟩ := d.takeByte_over b j hC hj hoffset
      simp [Decoder.take, hstep]
    case more =>
      intro hC hj
      obtain ⟨hstep, hoffset'⟩ := d.takeByte_more b j hC hj hoffset
      rw [Decoder.take, hstep]
      exact ⟨hbusy, hoffset'⟩
  case encodeStep =>
    intro e hbusy
    refine ⟨by simp [e.take_fail], ?_⟩
    cases hfits : fitsSeven e.remaining with
    | true => left; simp [e.take_ok_last hfits]
    | false => right; rw [e.take_ok_more hfits]; exact hbusy

end Sys2Proof.Machine
end

section
/-! Proofs of the statements on commands as bits (30_encoding.md section 3). -/

namespace Sys2Proof.Machine

/-- `Laws.CommandFits`, for every command. -/
theorem commandFits (i : Instr) : Laws.CommandFits.Statement i := by
  cases i with
  | enc32 value => exact Laws.CommandFits.enc32 value
  | enc64 value => exact Laws.CommandFits.enc64 value
  | dec32 value => exact Laws.CommandFits.dec32 value
  | dec64 value => exact Laws.CommandFits.dec64 value

@[simp] theorem decodeCommand_encode (i : Instr) : decodeCommand (encodeOp i) (encodeValue i) = i := by
  cases i with
  | enc32 value => exact decodeCommand_encodeOp .w32 value
  | enc64 value => exact decodeCommand_encodeOp .w64 value
  | dec32 value => exact decodeCommand_decodeOp .w32 value
  | dec64 value => exact decodeCommand_decodeOp .w64 value

@[simp] theorem encodeValue_decodeCommand (op : BitVec 2) (value : Word) :
    encodeValue (decodeCommand op value) = value := by
  unfold decodeCommand
  split <;> rfl

/-- A code of two bits is its two fields, DIR and WIDE. -/
@[simp] theorem encodeOp_decodeCommand (op : BitVec 2) (value : Word) : encodeOp (decodeCommand op value) = op := by
  have hfields : ∀ op : BitVec 2, encodeOp (decodeCommand op 0) = op := by decide
  rw [← hfields op, decodeCommand, decodeCommand]
  cases opIsDecode op <;> cases opWidth op <;> rfl

/-- A number of at most 66 bits is a command word. -/
theorem decodeTableWord_of_lt (w : Nat) (h : w < 2 ^ 66) :
    decodeTableWord 66 w = some (decodeCommand (wordOp w) (wordValue w)) := by
  have hfits : w < 2 ^ commandBits := h
  rw [decodeTableWord, Nat.mod_eq_of_lt h, decodeWord, if_pos hfits]

/-- OP and VALUE are all of a number of at most 66 bits. -/
theorem wordValue_mul_four_add_wordOp (w : Nat) (h : w < 2 ^ 66) :
    (wordValue w).toNat * 4 + (wordOp w).toNat = w := by
  simp only [wordValue, wordOp, BitVec.toNat_ofNat]
  omega

/-- Settles O2: a command's word splits into the fields it was made of (`commandFits`), and a number below 2^66 is
made of the fields it splits into (`wordValue_mul_four_add_wordOp`). -/
theorem commandWordRoundTrip : Obligations.CommandWordRoundTrip := by
  unfold Obligations.CommandWordRoundTrip
  constructor
  · intro i
    obtain ⟨hlt, hop, hvalue, -⟩ := commandFits i
    refine ⟨hlt, ?_⟩
    rw [decodeTableWord_of_lt _ hlt, hop, hvalue, decodeCommand_encode]
  · intro w hw
    refine ⟨_, decodeTableWord_of_lt w hw, ?_⟩
    rw [encodeWord, encodeOp_decodeCommand, encodeValue_decodeCommand, wordValue_mul_four_add_wordOp w hw]

/-- Settles O1: the rows are closed facts; on the wires each code is that of its command (`decodeCommand_encodeOp`,
`decodeCommand_decodeOp`). -/
theorem commandWordsOfTheTable : Obligations.CommandWordsOfTheTable := by
  unfold Obligations.CommandWordsOfTheTable
  exact ⟨by decide, by decide, by decide, by decide, by decide,
    decodeCommand_encodeOp .w32, decodeCommand_encodeOp .w64,
    decodeCommand_decodeOp .w32, decodeCommand_decodeOp .w64⟩

/-- Settles O3: the step performs the presented command (`step_cons`). -/
theorem stepRunsThePresentedCommand : Obligations.StepRunsThePresentedCommand := by
  unfold Obligations.StepRunsThePresentedCommand
  intro s k op value rest henv
  exact step_cons s _ rest henv

/-- What placing a command word puts before the moves to come. -/
theorem withFetchWord_eq (s : State) (nbits w : Nat) (i : Instr) (h : decodeTableWord nbits w = some i) :
    s.withFetchWord nbits w = { s with env := .command 0 (encodeOp i) (encodeValue i) :: s.env } := by
  simp [State.withFetchWord, placeCommand, h]

/-- Settles O4: the placed move presents the OP and VALUE of the command, which decode to it. -/
theorem placedCommandRunsNext : Obligations.PlacedCommandRunsNext := by
  unfold Obligations.PlacedCommandRunsNext
  intro s nbits w i hi
  have hstep := stepRunsThePresentedCommand _ 0 _ _ s.env (congrArg State.env (withFetchWord_eq s nbits w i hi))
  rw [hstep, withFetchWord_eq s nbits w i hi, decodeCommand_encode]

end Sys2Proof.Machine
end

section
/-! Proofs of the statements on the arithmetic of patterns that are left (00_scope.md R4, R6). -/

namespace Sys2Proof.Machine

theorem getLsbD_shl {W : Nat} (v : BitVec W) (n i : Nat) (hi : i < W) :
    (shl v n).getLsbD i = (decide (n ≤ i) && v.getLsbD (i - n)) := by
  rw [shl, BitVec.getLsbD_shiftLeft, decide_eq_true hi, Bool.true_and, ← decide_not]
  simp only [Nat.not_lt]

/-- The left shift as a number. -/
theorem shl_toNat {W : Nat} (v : BitVec W) (n : Nat) : (shl v n).toNat = v.toNat * 2 ^ n % 2 ^ W := by
  rw [shl, BitVec.toNat_shiftLeft, Nat.shiftLeft_eq]

/-- R52 step 2: a byte reaches ACC in the same way whether the operation ends with it or not. -/
@[simp] theorem Decoder.takeByte_acc (d : Decoder) (b : Byte) : (d.takeByte b).acc = zext 64 (d.accumulate b) := by
  cases hb : b.getLsbD 7 with
  | false => rw [d.takeByte_final b hb]
  | true =>
    cases hfull : offsetFull d.w (d.offset + 7#7) with
    | true => rw [d.takeByte_of_full b hb hfull]
    | false => rw [d.takeByte_of_not_full b hb hfull]

/-- Settles O6: the shift bit by bit (`getLsbD_shl`) and as a number (`shl_toNat`), and the decode step's use of it
(`Decoder.takeByte_acc`). -/
theorem leftShiftBits : Obligations.LeftShiftBits := by
  unfold Obligations.LeftShiftBits
  constructor
  · intro W v n hn
    refine ⟨?_, ?_, shl_toNat v n⟩
    · intro i hle hi
      simp [getLsbD_shl v n i hi, hle]
    · intro i hlt
      simp [getLsbD_shl v n i (hlt.trans hn), Nat.not_le.mpr hlt]
  · exact Decoder.takeByte_acc

/-- The two's-complement reading by the sign bit (R4). -/
theorem toSigned_eq {W : Nat} (u : BitVec W) :
    toSigned u = if u.getLsbD (W - 1) then (u.toNat : Int) - 2 ^ W else u.toNat := by
  rw [toSigned, BitVec.toInt_eq_msb_cond, BitVec.msb_eq_getLsbD_last]
  norm_cast

/-- The pattern of a number in the signed range, as a number (R4). -/
theorem toUnsigned_toNat {W : Nat} (z : Int) (hlow : -(2 ^ (W - 1) : Int) ≤ z) (hhigh : z < 2 ^ (W - 1)) (hW : 0 < W) :
    ((toUnsigned W z).toNat : Int) = if z < 0 then z + 2 ^ W else z := by
  have hpow : (2 ^ W : Int) = 2 * 2 ^ (W - 1) := by rw [← pow_succ', Nat.sub_add_cancel hW]
  have hmod : ((toUnsigned W z).toNat : Int) = z % 2 ^ W := by
    rw [toUnsigned, BitVec.toNat_ofInt, Int.toNat_of_nonneg (Int.emod_nonneg _ (by positivity))]
    norm_cast
  rw [hmod]
  split
  · rw [← Int.add_emod_right, Int.emod_eq_of_lt (by omega) (by omega)]
  · exact Int.emod_eq_of_lt (by omega) (by omega)

/-- Settles O7: `toSigned_eq` and `toUnsigned_toNat` are the numeric readings; a pattern is determined by its signed
reading. -/
theorem signedReading : Obligations.SignedReading := by
  unfold Obligations.SignedReading
  intro W hW
  exact ⟨toSigned_eq, fun z hlow hhigh => toUnsigned_toNat z hlow hhigh hW, fun u => BitVec.ofInt_toInt⟩

end Sys2Proof.Machine
end

section
/-! Proofs of the statements on what the encoder's sequence looks like (30_encoding.md R41, R44; 41_encoder.md R64,
R67; 20_memory.md R33; 40_decoder.md R57). -/

namespace Sys2Proof

theorem Width.maxGroups_pos (w : Width) : 0 < w.maxGroups := by
  cases w <;> decide

end Sys2Proof

namespace Sys2Proof.Machine

/-! ### The length of a pattern in groups (R44) -/

/-- A pattern has at most `n` groups exactly when `n` groups have room for its bits. -/
theorem groupLength_le_iff {W : Nat} (u : BitVec W) (n : Nat) (hn : 1 ≤ n) :
    groupLength u ≤ n ↔ u.toNat < 2 ^ (7 * n) := by
  rw [← bitLen_le_iff, groupLength]
  omega

theorem one_le_groupLength {W : Nat} (u : BitVec W) : 1 ≤ groupLength u :=
  Nat.le_max_left _ _

/-- R44's table: `n` groups from 2^(7(n-1)) on, or from 0 for the first row. -/
theorem groupLength_eq_iff {W : Nat} (u : BitVec W) (n : Nat) (hn : 1 ≤ n) :
    groupLength u = n ↔ (n = 1 ∨ 2 ^ (7 * (n - 1)) ≤ u.toNat) ∧ u.toNat < 2 ^ (7 * n) := by
  have hle := groupLength_le_iff u n hn
  have hpos := one_le_groupLength u
  by_cases h1 : n = 1
  · rw [← hle]
    omega
  · have hpred := groupLength_le_iff u (n - 1) (by omega)
    rw [← hle, ← Nat.not_lt, ← hpred]
    omega

/-- R44's recursion, one group at a time. -/
theorem groupLength_rec {W : Nat} (u : BitVec W) :
    groupLength u = if u.toNat < 2 ^ 7 then 1 else 1 + groupLength (lsr u 7) := by
  rw [groupLength, groupLength, bitLen_lsr]
  split
  · have := (bitLen_le_iff u 7).mpr ‹_›
    omega
  · have := mt (bitLen_le_iff u 7).mp ‹_›
    omega

/-- bitlen is the index of the highest set bit plus 1. -/
theorem getLsbD_bitLen_sub_one {W : Nat} (u : BitVec W) (h : 0 < bitLen u) : u.getLsbD (bitLen u - 1) = true := by
  have hne : u ≠ 0 := by
    rintro rfl
    simp [bitLen] at h
  have hnat : u.toNat ≠ 0 := by simpa [← BitVec.toNat_inj] using hne
  rw [bitLen, if_neg hne, Nat.add_sub_cancel]
  exact Nat.testBit_log2 hnat

/-- Settles O21: the recursion, the table and the encoder's length are lemmas of their own; the closed form is the
definition. -/
theorem encodedLength : Obligations.EncodedLength := by
  unfold Obligations.EncodedLength
  intro w u
  exact ⟨groupLength_rec u, rfl, (bitLen_le_iff u _).mp le_rfl, getLsbD_bitLen_sub_one u, groupLength_eq_iff u,
    length_encodeGroups w u⟩

/-! ### The groups the encoder writes -/

/-- At the last group, what remains fits in 7 bits. -/
theorem fitsSeven_lsr_of_le {W : Nat} (u : BitVec W) (j : Nat) (hj : groupLength u ≤ j + 1) :
    fitsSeven (lsr u (7 * j)) = true := by
  rw [fitsSeven_iff_bitLen, bitLen_lsr]
  unfold groupLength at hj
  omega

theorem groupOf_of_fits {W : Nat} (r : BitVec W) (h : fitsSeven r = true) : groupOf r = zext 8 r :=
  if_pos h

/-- What fits in 7 bits is its own group, as a number. -/
theorem toNat_groupOf_of_fits {W : Nat} (r : BitVec W) (h : fitsSeven r = true) : (groupOf r).toNat = r.toNat := by
  have hlt := (fitsSeven_iff r).mp h
  rw [groupOf_of_fits r h, zext, BitVec.toNat_setWidth]
  omega

theorem getElem?_encodeGroups (w : Width) (u : BitVec w.bits) (j : Nat) (hj : j < groupLength u) :
    (encodeGroups w u)[j]? = some (groupOf (lsr u (7 * j))) :=
  getElem?_groupsUpTo _ u j (by rwa [← encodeGroups, length_encodeGroups])

/-- The encoder's sequence is its groups before the last, which all have C = 1, and the last, with C = 0 and what
remains of the operand. -/
theorem encodeGroups_eq_append (w : Width) (u : BitVec w.bits) :
    ∃ gs g, encodeGroups w u = gs ++ [g] ∧ gs.length + 1 = groupLength u ∧ (∀ b ∈ gs, b.getLsbD 7 = true) ∧
      g.getLsbD 7 = false ∧ g = zext 8 (lsr u (7 * gs.length)) ∧ g.toNat = u.toNat / 2 ^ (7 * gs.length) := by
  have hlen := length_encodeGroups w u
  have hpos := one_le_groupLength u
  have hC : ∀ i g, (encodeGroups w u)[i]? = some g → (g.getLsbD 7 = true ↔ i + 1 < (encodeGroups w u).length) :=
    fun i g hg => getLsbD_seven_groupsUpTo _ u i g (toNat_lt_maxGroups w u) hg
  rcases List.eq_nil_or_concat' (encodeGroups w u) with hnil | ⟨gs, g, hgs⟩
  · simp [hnil] at hlen
    omega
  · have hgslen : gs.length + 1 = groupLength u := by rw [← hlen, hgs, List.length_append, List.length_singleton]
    have hfits := fitsSeven_lsr_of_le u gs.length hgslen.ge
    have hlast : (encodeGroups w u)[gs.length]? = some g := by simp [hgs]
    obtain rfl : groupOf (lsr u (7 * gs.length)) = g := by
      rw [getElem?_encodeGroups w u gs.length (by omega)] at hlast
      exact Option.some.inj hlast
    refine ⟨gs, _, hgs, hgslen, ?_, ?_, groupOf_of_fits _ hfits, ?_⟩
    · intro b hb
      obtain ⟨i, hi, rfl⟩ := List.getElem_of_mem hb
      rw [hC i gs[i] (by rw [hgs, List.getElem?_append_left hi, List.getElem?_eq_getElem hi]), hlen]
      omega
    · rw [← Bool.not_eq_true, hC _ _ hlast, hlen]
      omega
    · rw [toNat_groupOf_of_fits _ hfits, lsr_toNat]

/-- R64: a negative operand takes MAX_GROUPS(W) groups. -/
theorem groupLength_of_negative (w : Width) (u : BitVec w.bits) (h : u.getLsbD (w.bits - 1) = true) :
    groupLength u = w.maxGroups := by
  have hge : 2 ^ (w.bits - 1) ≤ u.toNat := Nat.ge_two_pow_of_testBit h
  have hbits := mt (bitLen_le_iff u (w.bits - 1)).mp (Nat.not_lt.mpr hge)
  have hmax := groupLength_le_maxGroups w u
  unfold groupLength at hmax ⊢
  cases w <;> simp only [Width.bits, Width.maxGroups] at hbits hmax ⊢ <;> omega

/-- The group at the last index is at most what the bits of the operand left for it give. -/
theorem toNat_last_encodeGroups_lt (w : Width) (u : BitVec w.bits) (j n : Nat) (g : Byte) (hn : w.bits = 7 * j + n)
    (hj : groupLength u ≤ j + 1) (hg : (encodeGroups w u)[j]? = some g) : g.toNat < 2 ^ n := by
  obtain ⟨hlt, -⟩ := List.getElem?_eq_some_iff.mp hg
  rw [length_encodeGroups] at hlt
  obtain rfl : groupOf (lsr u (7 * j)) = g := Option.some.inj ((getElem?_encodeGroups w u j hlt).symm.trans hg)
  rw [toNat_groupOf_of_fits _ (fitsSeven_lsr_of_le u j hj), lsr_toNat, Nat.div_lt_iff_lt_mul (by positivity),
    ← Nat.pow_add, Nat.add_comm, ← hn]
  exact u.isLt

/-- Settles O22: a negative operand has MAX_GROUPS(W) groups (`groupLength_of_negative`), whose last is what remains
of the operand (`encodeGroups_eq_append`), and that has no more bits than W leaves it (`toNat_last_encodeGroups_lt`).
-/
theorem negativeTakesAllGroups : Obligations.NegativeTakesAllGroups := by
  unfold Obligations.NegativeTakesAllGroups
  refine ⟨?negative32, ?negative64, ?excess32, ?excess64⟩
  case negative32 =>
    intro u hu
    obtain ⟨gs, g, hgs, hlen, hC, -, hg, hgNat⟩ := encodeGroups_eq_append .w32 u
    rw [groupLength_of_negative .w32 u hu, Width.maxGroups_w32] at hlen
    obtain hlen : gs.length = 4 := by omega
    rw [hlen] at hg hgNat
    have hge : 2 ^ 31 ≤ u.toNat := Nat.ge_two_pow_of_testBit hu
    have hlt : u.toNat < 2 ^ 32 := u.isLt
    exact ⟨gs, g, hgs, hlen, hC, hg, by omega, by omega⟩
  case negative64 =>
    intro u hu
    obtain ⟨gs, g, hgs, hlen, hC, -, -, hgNat⟩ := encodeGroups_eq_append .w64 u
    rw [groupLength_of_negative .w64 u hu, Width.maxGroups_w64] at hlen
    obtain hlen : gs.length = 9 := by omega
    rw [hlen] at hgNat
    have hge : 2 ^ 63 ≤ u.toNat := Nat.ge_two_pow_of_testBit hu
    have hlt : u.toNat < 2 ^ 64 := u.isLt
    obtain rfl : g = 0x01#8 := BitVec.eq_of_toNat_eq (by rw [hgNat]; simp; omega)
    exact ⟨gs, hgs, hlen, hC⟩
  case excess32 =>
    intro u g hg
    have := toNat_last_encodeGroups_lt .w32 u 4 4 g rfl (groupLength_le_maxGroups .w32 u) hg
    omega
  case excess64 =>
    intro u g hg
    have := toNat_last_encodeGroups_lt .w64 u 9 1 g rfl (groupLength_le_maxGroups .w64 u) hg
    omega

/-- The group of a value does not depend on the width it is held in. -/
theorem groupOf_congr {W W' : Nat} {r : BitVec W} {r' : BitVec W'} (h : r.toNat = r'.toNat) :
    groupOf r = groupOf r' := by
  have hfits : fitsSeven r = fitsSeven r' := by rw [Bool.eq_iff_iff, fitsSeven_iff, fitsSeven_iff, h]
  have hzext : ∀ N, zext N r = zext N r' := fun N => BitVec.eq_of_toNat_eq (by simp [zext, h])
  rw [groupOf, groupOf, hfits, hzext, hzext]

theorem groupLength_congr {W W' : Nat} {u : BitVec W} {u' : BitVec W'} (h : u.toNat = u'.toNat) :
    groupLength u = groupLength u' :=
  eq_of_forall_ge_iff fun n => by
    rcases Nat.eq_zero_or_pos n with rfl | hn
    · have := one_le_groupLength u
      have := one_le_groupLength u'
      omega
    · rw [groupLength_le_iff u n hn, groupLength_le_iff u' n hn, h]

/-- The encoder's sequence of a value does not depend on the width it is held in. -/
theorem encodeGroups_congr {w w' : Width} {u : BitVec w.bits} {u' : BitVec w'.bits} (h : u.toNat = u'.toNat) :
    encodeGroups w u = encodeGroups w' u' := by
  have hlen := groupLength_congr h
  apply List.ext_getElem?
  intro j
  by_cases hj : j < groupLength u
  · have hrest : (lsr u (7 * j)).toNat = (lsr u' (7 * j)).toNat := by rw [lsr_toNat, lsr_toNat, h]
    rw [getElem?_encodeGroups w u j hj, getElem?_encodeGroups w' u' j (hlen ▸ hj), groupOf_congr hrest]
  · rw [List.getElem?_eq_none (by rw [length_encodeGroups]; omega),
      List.getElem?_eq_none (by rw [length_encodeGroups]; omega)]

/-- Settles O25: a value below 2^31 is the same number in both widths (`encodeGroups_congr`); sign extension keeps a
negative value negative, so that both widths need all their groups (`groupLength_of_negative`). -/
theorem widthsAgreeOnNonnegative : Obligations.WidthsAgreeOnNonnegative := by
  unfold Obligations.WidthsAgreeOnNonnegative
  constructor
  · intro v hv
    exact encodeGroups_congr (w := .w32) (w' := .w64)
      (by rw [BitVec.toNat_setWidth, Nat.mod_eq_of_lt (hv.trans (by decide))])
  · intro v hv
    have hsign : (v.signExtend 64).getLsbD 63 = true := by
      rw [BitVec.getLsbD_signExtend, BitVec.msb_eq_getLsbD_last, hv]
      rfl
    rw [length_encodeGroups, length_encodeGroups, groupLength_of_negative .w32 v hv,
      groupLength_of_negative .w64 _ hsign]
    exact ⟨rfl, rfl⟩

/-! ### Accepted sequences and padding (R45, R57) -/

/-- R45: a sequence is accepted exactly when it has at most MAX_GROUPS(W) groups, C = 1 on all but the last and C = 0
on that. -/
theorem accepted_append_singleton (w : Width) (gs : List Byte) (g : Byte) :
    accepted w (gs ++ [g]) = true ↔
      gs.length + 1 ≤ w.maxGroups ∧ g.getLsbD 7 = false ∧ ∀ b ∈ gs, b.getLsbD 7 = true := by
  simp [accepted, continues, and_assoc]

/-- Groups without a data bit add nothing to the pattern. -/
theorem assembleFrom_of_dataBits_zero (W i : Nat) (gs : List Byte) (h : ∀ b ∈ gs, dataBits b = 0) :
    assembleFrom W i gs = 0 := by
  induction gs generalizing i with
  | nil => rfl
  | cons g gs ih =>
    obtain ⟨hg, hgs⟩ := List.forall_mem_cons.mp h
    rw [assembleFrom, hg, ih (i + 1) hgs]
    simp [shl, zext]

theorem assemble_append_of_dataBits_zero (W : Nat) (gs hs : List Byte) (h : ∀ b ∈ hs, dataBits b = 0) :
    assemble W (gs ++ hs) = assemble W gs := by
  rw [assemble, assembleFrom_append, assembleFrom_of_dataBits_zero W _ hs h]
  exact BitVec.or_zero

/-- C of a group is no data bit. -/
theorem dataBits_or_continuation (g : Byte) : dataBits (g ||| 0x80#8) = dataBits g := by
  have h80 : ∀ i, i < 7 → (0x80#8).getLsbD i = false := by decide
  apply BitVec.eq_of_getLsbD_eq
  intro i hi
  simp [dataBits, hi, h80 i hi]

/-- The padding of R57: groups without data bits, the last with C = 0. -/
theorem dataBits_padding (n : Nat) : ∀ b ∈ List.replicate n 0x80#8 ++ [0x00#8], dataBits b = 0 := by
  intro b hb
  simp only [List.mem_append, List.mem_replicate, List.mem_singleton] at hb
  obtain ⟨-, rfl⟩ | rfl := hb <;> decide

/-- Settles O24: the padding has no data bits (`dataBits_padding`), and neither has C of the old last group. -/
theorem paddingKeepsTheValue : Obligations.PaddingKeepsTheValue := by
  unfold Obligations.PaddingKeepsTheValue
  intro w gs g n hC hg hlen
  refine ⟨?plain, ?padded, ?value⟩
  case plain =>
    exact (accepted_append_singleton w gs g).mpr ⟨by omega, hg, hC⟩
  case padded =>
    rw [accepted_append_singleton]
    refine ⟨by simp; omega, by decide, ?_⟩
    intro b hb
    simp only [List.mem_append, List.mem_singleton, List.mem_replicate] at hb
    obtain (hb | rfl) | ⟨-, rfl⟩ := hb
    · exact hC b hb
    · simp
    · decide
  case value =>
    rw [List.append_assoc, assemble_append_of_dataBits_zero _ _ _ (dataBits_padding n), assemble_append_singleton,
      assemble_append_singleton, dataBits_or_continuation]

/-! ### The encoder's sequence is minimal (R67) -/

/-- `n` groups spell a pattern below 2^(7n). -/
theorem toNat_assemble_lt (W : Nat) (gs : List Byte) : (assemble W gs).toNat < 2 ^ (7 * gs.length) := by
  apply Nat.lt_pow_two_of_testBit
  intro m hm
  by_cases hW : m < W
  · have hnone : gs[m / 7]? = none := List.getElem?_eq_none (by omega)
    have hbit := getLsbD_assemble W gs m hW
    rw [hnone] at hbit
    exact hbit.trans (by simp)
  · exact BitVec.getLsbD_of_ge _ m (by omega)

/-- R66: the encoder's groups spell its operand. -/
theorem assemble_encodeGroups (w : Width) (u : BitVec w.bits) : assemble w.bits (encodeGroups w u) = u := by
  apply BitVec.eq_of_getLsbD_eq
  intro m hm
  rw [getLsbD_assemble _ _ m hm]
  have hm7 : 7 * (m / 7) + m % 7 = m := Nat.div_add_mod m 7
  cases hg : (encodeGroups w u)[m / 7]? with
  | some g => rw [Option.getD_some, getLsbD_groupsUpTo _ u _ g hg _ (Nat.mod_lt m (by decide)), hm7]
  | none =>
    have hlen := List.getElem?_eq_none_iff.mp hg
    rw [length_encodeGroups] at hlen
    have hlt := (groupLength_le_iff u _ ((one_le_groupLength u).trans hlen)).mp hlen
    have hbit : u.getLsbD m = false :=
      Nat.testBit_lt_two_pow (hlt.trans_le (Nat.pow_le_pow_right (by decide) (by omega)))
    simp [hbit]

/-- R45, R63: the decoder accepts what the encoder writes. -/
theorem accepted_encodeGroups (w : Width) (u : BitVec w.bits) : accepted w (encodeGroups w u) = true := by
  obtain ⟨gs, g, hgs, hlen, hC, hg, -⟩ := encodeGroups_eq_append w u
  have hmax := groupLength_le_maxGroups w u
  rw [hgs, accepted_append_singleton]
  exact ⟨by omega, hg, hC⟩

/-- A nonempty sequence that spells the pattern is not shorter than the encoder's. -/
theorem length_encodeGroups_le (w : Width) (u : BitVec w.bits) (gs : List Byte) (hgs : assemble w.bits gs = u)
    (hne : gs ≠ []) : (encodeGroups w u).length ≤ gs.length := by
  rw [length_encodeGroups, groupLength_le_iff u _ (List.length_pos_iff.mpr hne), ← hgs]
  exact toNat_assemble_lt _ gs

/-- The encoder's last group is zero only as the sole group of 0. -/
theorem encodeGroups_last_ne_zero (w : Width) (u : BitVec w.bits) (gs : List Byte) (g : Byte)
    (hgs : encodeGroups w u = gs ++ [g]) (hg : g = 0) : gs = [] ∧ u = 0 := by
  obtain ⟨gs', g', hgs', hlen, -, -, -, hgNat⟩ := encodeGroups_eq_append w u
  obtain ⟨rfl, rfl⟩ := (List.append_singleton_inj).mp (hgs.symm.trans hgs')
  have hzero : u.toNat / 2 ^ (7 * gs.length) = 0 := by rw [← hgNat, hg]; rfl
  rw [Nat.div_eq_zero_iff_lt (by positivity)] at hzero
  have hnil : gs = [] := by
    by_contra hne
    have := (groupLength_le_iff u gs.length (List.length_pos_iff.mpr hne)).mpr hzero
    omega
  subst hnil
  exact ⟨rfl, BitVec.eq_of_toNat_eq (by simpa using hzero)⟩

/-- Settles O26: `length_encodeGroups_le` and `encodeGroups_last_ne_zero` are the minimality; a longer spelling is the
encoder's sequence padded (`paddingKeepsTheValue`). -/
theorem encodingIsMinimal : Obligations.EncodingIsMinimal := by
  unfold Obligations.EncodingIsMinimal
  intro w u
  refine ⟨accepted_encodeGroups w u, assemble_encodeGroups w u, length_encodeGroups_le w u,
    encodeGroups_last_ne_zero w u, ?longer⟩
  intro n hn hmax
  obtain ⟨gs, g, hgs, -, hC, hg, -⟩ := encodeGroups_eq_append w u
  have hlen : (encodeGroups w u).length = gs.length + 1 := by rw [hgs, List.length_append, List.length_singleton]
  obtain ⟨-, haccepted, hvalue⟩ := paddingKeepsTheValue w gs g (n - gs.length - 2) hC hg (by omega)
  have hpadded : (gs ++ [g ||| 0x80#8] ++ List.replicate (n - gs.length - 2) 0x80#8 ++ [0x00#8]).length = n := by
    simp
    omega
  refine ⟨_, hpadded, haccepted, ?_, ?_⟩
  · rw [hvalue, ← hgs, assemble_encodeGroups]
  · intro heq
    rw [heq] at hpadded
    omega

end Sys2Proof.Machine
end

section
/-! Proofs of the statements on whole encode operations that are left (10_state.md R19; 41_encoder.md R61 to R63,
R66). -/

namespace Sys2Proof.Machine

/-- An answer of the sink does not concern an encoder that is not BUSY (R35, log entry 8). -/
theorem Instance.sinkAnswer_ready (x : Instance) (a : SinkAnswer) (h : x.enc.state ≠ .busy) : x.sinkAnswer a = x :=
  if_neg h

theorem Instance.foldl_sinkAnswer_ready (x : Instance) (as : List SinkAnswer) (h : x.enc.state ≠ .busy) :
    as.foldl Instance.sinkAnswer x = x := by
  induction as with
  | nil => rfl
  | cons a as ih => rw [List.foldl_cons, x.sinkAnswer_ready a h, ih]

/-- The last accepted byte ends the operation. -/
theorem Instance.Written.last {x : Instance} {w : Width} {u : BitVec w.bits} {before : List Byte} {j : Nat}
    (h : x.Written w u before j) (hj : j + 1 = groupLength u) :
    (x.sinkAnswer .ok).enc.state = .complete ∧ (x.sinkAnswer .ok).enc.status = .ok ∧
    (x.sinkAnswer .ok).sink = before ++ encodeGroups w u := by
  have hoffered := h.offered
  obtain ⟨hbusy, rfl, -, hrem, hsink⟩ := h
  have hlast : fitsSeven x.enc.remaining = true := by
    rw [Encoder.remaining, hrem, zext_zext]
    exact fitsSeven_lsr_of_le u j hj.ge
  have hall : (encodeGroups x.enc.w u).take (j + 1) = encodeGroups x.enc.w u := by
    rw [hj, ← length_encodeGroups, List.take_length]
  rw [x.sinkAnswer_ok hbusy, x.enc.take_ok_last hlast, hoffered]
  refine ⟨rfl, rfl, ?_⟩
  rw [← hall, take_succ_encodeGroups _ u j (by omega), ← List.append_assoc, ← hsink]

/-- An operation whose sink accepts L_W(u) bytes. -/
theorem Instance.Written.all {x : Instance} {w : Width} {u : BitVec w.bits} {before : List Byte}
    (h : x.Written w u before 0) :
    let y := (List.replicate (groupLength u) SinkAnswer.ok).foldl Instance.sinkAnswer x
    y.enc.state = .complete ∧ y.enc.status = .ok ∧ y.sink = before ++ encodeGroups w u := by
  obtain ⟨n, hn⟩ : ∃ n, groupLength u = n + 1 := Nat.exists_eq_add_of_le' (one_le_groupLength u)
  rw [hn, List.replicate_succ', List.foldl_append]
  exact (h.moreAll n (by omega)).last hn.symm

/-- Settles O30: silences apart, the operation is its start step and the fold of the sink's answers
(`run_encode_silent`), which `Written.all` follows to the end. -/
theorem encodeWritesTheGroups : Obligations.EncodeWritesTheGroups := by
  unfold Obligations.EncodeWritesTheGroups
  intro w value s x k hx hready hpending hheld hspoken
  obtain ⟨t, y, hrun, -, hy, ⟨hysink, hyenc, -⟩, -⟩ :=
    run_encode_silent k w value _ [] s.env s x x hx hready hpending hheld rfl rfl (List.append_nil _).symm hspoken
  obtain ⟨hstate, hstatus, hsink⟩ := (x.written_start w value hpending).all
  refine ⟨t, y, hrun, hy, ?_, ?_, hysink.trans hsink, length_encodeGroups w _, groupLength_le_maxGroups w _,
    accepted_encodeGroups w _⟩
  · rw [hyenc]; exact hstate
  · rw [hyenc]; exact hstatus

/-- After L_W(u) accepted bytes no encoder is BUSY, however many answers follow. -/
theorem Instance.Written.not_busy_of_le {x : Instance} {w : Width} {u : BitVec w.bits} {before : List Byte} {j : Nat}
    (h : x.Written w u before 0) (hj : groupLength u ≤ j) :
    ((List.replicate j SinkAnswer.ok).foldl Instance.sinkAnswer x).enc.state ≠ .busy := by
  obtain ⟨n, rfl⟩ := Nat.exists_eq_add_of_le hj
  obtain ⟨hstate, -, -⟩ := h.all
  rw [List.replicate_add, List.foldl_append, Instance.foldl_sinkAnswer_ready _ _ (by rw [hstate]; decide), hstate]
  decide

/-- Settles O31: before L_W(u) accepted bytes the encoder is in the midst of the operation (`Written.moreAll`), and
from there on it is not BUSY (`Written.not_busy_of_le`). -/
theorem remainingWhileEncoding : Obligations.RemainingWhileEncoding := by
  unfold Obligations.RemainingWhileEncoding
  intro w value s x k j env later hx hready hpending hheld henv hspoken
  obtain ⟨t, y, hrun, ht, hy, ⟨hysink, hyenc, -⟩, -⟩ :=
    run_encode_silent k w value _ later env s x x hx hready hpending hheld rfl rfl henv hspoken
  have hstart := x.written_start w value hpending
  have hmax := groupLength_le_maxGroups w (value.setWidth w.bits)
  refine ⟨t, y, hrun, ht, hy, ?registers, ?busy⟩
  case registers =>
    rw [hyenc, hysink]
    intro hbusy
    have hj : j < groupLength (value.setWidth w.bits) := by
      by_contra hj
      exact hstart.not_busy_of_le (Nat.not_lt.mp hj) hbusy
    obtain ⟨-, hwidth, -, hrem, hsink⟩ := hstart.moreAll j hj
    exact ⟨by omega, hwidth, hrem, hsink⟩
  case busy =>
    intro hj
    rw [hyenc]
    exact (hstart.moreAll j hj).busy

/-- Settles O33: the bytes are the encoder's sequence (`encodeWritesTheGroups`), which has C = 1 on all but its last
group (`encodeGroups_eq_append`), so that the decoder consumes it whole (`acceptedSequenceDecodes`) and reads the
operand (`assemble_encodeGroups`). -/
theorem roundTrip : Obligations.RoundTrip := by
  unfold Obligations.RoundTrip
  intro w value value' s s' x x' k k' bytes hx hready hpending hheld hspoken
  obtain ⟨t, y, hrun, hy, hstate, hstatus, hsink, hlen, hmax, -⟩ :=
    encodeWritesTheGroups w value s x k hx hready hpending hheld hspoken
  refine ⟨t, y, _, hrun, hy, hstate, hstatus, hsink, hlen, ?_⟩
  intro hx' hready' hheld' hsrc' hspoken'
  obtain ⟨gs, g, hgs, hgslen, hC, hg, -⟩ := encodeGroups_eq_append w (value.setWidth w.bits)
  rw [hlen, ← hgslen] at hspoken'
  rw [hgs, List.append_assoc] at hsrc'
  obtain ⟨t', y', v, hrun', hy', hstate', hstatus', hresult, hv, hrest, -⟩ :=
    acceptedSequenceDecodes w value' s' x' k' gs g bytes hx' hready' hheld' hsrc' (by omega) hC hg hspoken'
  rw [← hgs, decodeValue, assemble_encodeGroups, ← toSigned_sext] at hv
  obtain rfl := BitVec.toInt_inj.mp hv
  exact ⟨t', y', hrun', hy', hrest, hstate', hstatus', hresult⟩

/-! ### An encode in progress ends -/

/-- The encoder has ended its operation, or ends it within `n` answers of its sink, whatever they are. -/
def Instance.EncodeEndsWithin (x : Instance) (n : Nat) : Prop :=
  x.enc.state = .complete ∨ (x.enc.state = .busy ∧ groupLength x.enc.remaining ≤ n)

/-- An answer brings the end nearer: a `Fail` and the last group are the end, and any other group leaves one group
less to write. -/
theorem Instance.EncodeEndsWithin.answer {x : Instance} {n : Nat} (h : x.EncodeEndsWithin (n + 1)) (a : SinkAnswer) :
    (x.sinkAnswer a).EncodeEndsWithin n := by
  obtain hdone | ⟨hbusy, hn⟩ := h
  · rw [x.sinkAnswer_ready a (by rw [hdone]; decide)]
    exact .inl hdone
  cases a with
  | fail => rw [x.sinkAnswer_fail hbusy]; exact .inl rfl
  | ok =>
    rw [x.sinkAnswer_ok hbusy]
    cases hfits : fitsSeven x.enc.remaining with
    | true => rw [x.enc.take_ok_last hfits]; exact .inl rfl
    | false =>
      have hlarge : ¬ x.enc.remaining.toNat < 2 ^ 7 := by
        intro hlt
        rw [(fitsSeven_iff _).mpr hlt] at hfits
        cases hfits
      rw [groupLength_rec, if_neg hlarge] at hn
      rw [x.enc.take_ok_more hfits]
      refine .inr ⟨hbusy, ?_⟩
      simp only [Encoder.remaining] at hn ⊢
      rw [zext_zext]
      omega

/-- A silence brings the end no nearer and puts it no further away. -/
theorem Instance.EncodeEndsWithin.wait {x : Instance} {n : Nat} (hheld : x.heldEnc = none) (h : x.EncodeEndsWithin n) :
    x.wait.EncodeEndsWithin n := by
  obtain hdone | ⟨hbusy, hn⟩ := h
  · left
    rw [Instance.wait_enc, hheld]
    simp only [x.enc.wait_ready (by rw [hdone]; decide), hdone]
  · right
    rw [x.wait_enc_busy hbusy]
    exact ⟨hbusy, hn⟩

/-- With no answer left the operation has ended, because a pattern has at least one group. -/
theorem Instance.EncodeEndsWithin.complete_of_zero {x : Instance} (h : x.EncodeEndsWithin 0) :
    x.enc.state = .complete := by
  obtain hdone | ⟨-, hn⟩ := h
  · exact hdone
  · have := one_le_groupLength x.enc.remaining
    omega

/-- The answers of the sink, with silences between them, whatever byte is on offer. -/
theorem run_sinkAnswers_complete (k : Nat) (env : List Move) :
    ∀ (as : List SinkAnswer) (s : State) (x : Instance), s.instances[k]? = some x → x.heldEnc = none →
    x.EncodeEndsWithin as.length → s.env = env → spoken env = as.map (Move.sinkAnswer k) →
    ∃ t y, run env.length s = .next t ∧ t.instances[k]? = some y ∧ y.enc.state = .complete := by
  induction env with
  | nil =>
    intro as s x hx _ hends _ hspoken
    obtain rfl : as = [] := List.map_eq_nil_iff.mp hspoken.symm
    exact ⟨s, x, rfl, hx, hends.complete_of_zero⟩
  | cons m env ih =>
    intro as s x hx hheld hends henv hspoken
    have silence : m = .wait → spoken env = as.map (Move.sinkAnswer k) →
        ∃ t y, run (m :: env).length s = .next t ∧ t.instances[k]? = some y ∧ y.enc.state = .complete := by
      rintro rfl hrest
      obtain ⟨s', hstep, henv', hx'⟩ := step_silent s env k x henv hx
      rw [List.length_cons, run_succ _ _ _ hstep]
      exact ih as s' x.wait hx' (x.wait_heldEnc hheld) (hends.wait hheld) henv' hrest
    cases as with
    | nil =>
      obtain ⟨hm, hrest⟩ := spoken_nil _ _ hspoken
      exact silence hm hrest
    | cons a as =>
      rcases spoken_split _ _ _ _ hspoken with ⟨hm, hrest⟩ | ⟨rfl, hrest⟩
      · exact silence hm hrest
      · have hheld' : (x.sinkAnswer a).heldEnc = none := by
          unfold Instance.sinkAnswer
          split <;> exact hheld
        have hx' : (s.after env k (x.sinkAnswer a)).instances[k]? = some (x.sinkAnswer a) := by
          simp [State.after, getElem?_set_instance _ _ _ _ _ hx]
        rw [List.length_cons, run_succ _ _ _ (step_sinkAnswer s k x a env hx henv)]
        exact ih as _ _ hx' hheld' (hends.answer a) rfl hrest

/-- Settles O35: what remains of the operand has at most MAX_GROUPS(W) groups, and every answer takes one away. -/
theorem answeredEncodeEnds : Obligations.AnsweredEncodeEnds := by
  unfold Obligations.AnsweredEncodeEnds
  intro s k x answers hx hbusy hheld hlen hspoken
  have hends : x.EncodeEndsWithin answers.length :=
    .inr ⟨hbusy, by rw [hlen]; exact groupLength_le_maxGroups _ _⟩
  exact run_sinkAnswers_complete k s.env answers s x hx hheld hends rfl hspoken

end Sys2Proof.Machine
end

section
/-! Proofs of the statements on whole decode operations that are left (10_state.md R17; 30_encoding.md R46;
40_decoder.md R56; 20_memory.md R30). -/

namespace Sys2Proof.Machine

/-- An answer of the source does not concern a decoder that is not BUSY (R35, log entry 8). -/
theorem Instance.srcAnswer_ready (x : Instance) (r : SrcReply) (h : x.dec.state ≠ .busy) : x.srcAnswer r = x :=
  if_neg h

theorem Instance.foldl_srcAnswer_ready (x : Instance) (rs : List SrcReply) (h : x.dec.state ≠ .busy) :
    rs.foldl Instance.srcAnswer x = x := by
  induction rs with
  | nil => rfl
  | cons r rs ih => rw [List.foldl_cons, x.srcAnswer_ready r h, ih]

/-- A byte with C = 1 at the last group index ends the operation (R56). -/
theorem Instance.Consumed.over {x : Instance} {w : Width} {gs bytes : List Byte} {b : Byte}
    (h : x.Consumed w gs (b :: bytes)) (hb : b.getLsbD 7 = true) (hlen : gs.length + 1 = w.maxGroups) :
    (x.srcAnswer .deliver).dec.state = .complete ∧ (x.srcAnswer .deliver).dec.status = .overlong ∧
    (x.srcAnswer .deliver).dec.result = none ∧ (x.srcAnswer .deliver).src = bytes ∧
    (x.srcAnswer .deliver).dec.offset.toNat = 7 * (gs.length + 1) := by
  obtain ⟨hstep, hoffset⟩ := x.dec.takeByte_over b gs.length hb (by rwa [h.width]) h.offset
  rw [x.srcAnswer_deliver b bytes h.busy h.source, hstep]
  exact ⟨rfl, rfl, rfl, rfl, hoffset⟩

/-- A source that fails ends the operation and keeps its bytes (R46). -/
theorem Instance.Consumed.fail {x : Instance} {w : Width} {gs bytes : List Byte} (h : x.Consumed w gs bytes) :
    (x.srcAnswer .fail).dec.state = .complete ∧ (x.srcAnswer .fail).dec.status = .readFailure ∧
    (x.srcAnswer .fail).dec.result = none ∧ (x.srcAnswer .fail).src = bytes ∧
    (x.srcAnswer .fail).dec.offset.toNat = 7 * gs.length := by
  rw [x.srcAnswer_fail h.busy]
  exact ⟨rfl, rfl, rfl, h.source, h.offset⟩

/-- Settles O28: silences apart, the operation is its start step and the fold of the source's answers
(`run_decode_silent`); bytes with C = 1 are consumed (`Consumed.moreAll`) up to the last index (`Consumed.over`) or a
failing answer (`Consumed.fail`). -/
theorem rejectedSequences : Obligations.RejectedSequences := by
  unfold Obligations.RejectedSequences
  intro w value s x k gs bytes hx hready hheld hsrc hC
  have hstart := x.consumed_start w _ hsrc
  refine ⟨?overlong, ?readFailure⟩
  case overlong =>
    intro hlen hspoken
    obtain ⟨t, y, hrun, -, hy, ⟨hysrc, hydec⟩, -⟩ :=
      run_decode_silent k w value _ [] s.env s x x hx hready hheld (DecSim.refl x) (List.append_nil _).symm hspoken
    have hne : gs ≠ [] := List.length_pos_iff.mp (hlen ▸ w.maxGroups_pos)
    obtain ⟨hs, b, rfl⟩ := (List.eq_nil_or_concat' gs).resolve_left hne
    obtain ⟨hCs, hb⟩ := List.forall_mem_append.mp hC
    rw [List.append_assoc] at hstart
    rw [List.length_append, List.length_singleton] at hlen hysrc hydec ⊢
    obtain ⟨hstate, hstatus, hresult, hrest, hoffset⟩ :=
      (hstart.moreAll hCs (by rw [List.length_nil]; omega)).over (hb b (by simp)) hlen
    rw [List.replicate_succ', List.foldl_append] at hysrc hydec
    refine ⟨t, y, hrun, hy, ?_, ?_, ?_, hysrc.trans hrest, ?_⟩ <;> rw [hydec]
    exacts [hstate, hstatus, hresult, hoffset]
  case readFailure =>
    intro hlen hspoken
    obtain ⟨t, y, hrun, -, hy, ⟨hysrc, hydec⟩, -⟩ :=
      run_decode_silent k w value _ [] s.env s x x hx hready hheld (DecSim.refl x) (List.append_nil _).symm hspoken
    obtain ⟨hstate, hstatus, hresult, hrest, hoffset⟩ :=
      (hstart.moreAll hC (by rwa [List.length_nil, Nat.zero_add])).fail
    rw [List.foldl_append] at hysrc hydec
    refine ⟨t, y, hrun, hy, ?_, ?_, ?_, hysrc.trans hrest, ?_⟩ <;> rw [hydec]
    exacts [hstate, hstatus, hresult, hoffset]

/-! ### The accumulator in the midst of an operation (R17) -/

/-- A W-bit pattern in its 64-bit register is the same number. -/
theorem toNat_zext_register (w : Width) (a : BitVec w.bits) : (zext 64 a).toNat = a.toNat := by
  have hbits : w.bits ≤ 64 := by cases w <;> decide
  exact BitVec.toNat_setWidth_of_le hbits

/-- R14: every decode step leaves the bits of ACC above W at 0. -/
theorem Decoder.take_acc_lt (d : Decoder) (a : SrcAnswer) (h : d.acc.toNat < 2 ^ d.w.bits) :
    (d.take a).acc.toNat < 2 ^ (d.take a).w.bits := by
  rw [Decoder.take_w]
  cases a with
  | fail => exact h
  | byte b =>
    rw [Decoder.take, Decoder.takeByte_acc, toNat_zext_register]
    exact (d.accumulate b).isLt

theorem Instance.foldl_srcAnswer_acc_lt (x : Instance) (rs : List SrcReply) (h : x.dec.acc.toNat < 2 ^ x.dec.w.bits) :
    (rs.foldl Instance.srcAnswer x).dec.acc.toNat < 2 ^ (rs.foldl Instance.srcAnswer x).dec.w.bits := by
  induction rs generalizing x with
  | nil => exact h
  | cons r rs ih =>
    apply ih
    unfold Instance.srcAnswer
    split
    · exact x.dec.take_acc_lt _ h
    · exact h

/-- With the unused bits at 0, ACC is the pattern of the groups consumed, as a number. -/
theorem Instance.Consumed.toNat_acc {x : Instance} {w : Width} {gs bytes : List Byte} (h : x.Consumed w gs bytes)
    (hnarrow : x.dec.acc.toNat < 2 ^ x.dec.w.bits) : x.dec.acc.toNat = (assemble w.bits gs).toNat := by
  obtain ⟨-, rfl, -, hacc, -⟩ := h
  rw [← hacc, zext, BitVec.toNat_setWidth, Nat.mod_eq_of_lt hnarrow]

/-- A decode step on any byte: the operation goes on only after C = 1 at an index before the last. -/
theorem Instance.Consumed.next {x : Instance} {w : Width} {gs bytes : List Byte} {b : Byte}
    (h : x.Consumed w gs (b :: bytes)) (hlen : gs.length < w.maxGroups) :
    ((x.srcAnswer .deliver).Consumed w (gs ++ [b]) bytes ∧ gs.length + 1 < w.maxGroups) ∨
    (x.srcAnswer .deliver).dec.state ≠ .busy := by
  cases hb : b.getLsbD 7 with
  | false =>
    obtain ⟨hstate, -⟩ := h.final hb hlen
    exact .inr (by rw [hstate]; decide)
  | true =>
    by_cases hlast : gs.length + 1 < w.maxGroups
    · exact .inl ⟨h.more hb hlast, hlast⟩
    · obtain ⟨hstate, -⟩ := h.over hb (by omega)
      exact .inr (by rw [hstate]; decide)

/-- Decode steps on any bytes: an operation that is still BUSY has consumed them all. -/
theorem Instance.Consumed.nextAll {x : Instance} {w : Width} {gs hs bytes : List Byte}
    (h : x.Consumed w gs (hs ++ bytes)) (hlen : gs.length < w.maxGroups) :
    (((List.replicate hs.length SrcReply.deliver).foldl Instance.srcAnswer x).Consumed w (gs ++ hs) bytes ∧
      (gs ++ hs).length < w.maxGroups) ∨
    ((List.replicate hs.length SrcReply.deliver).foldl Instance.srcAnswer x).dec.state ≠ .busy := by
  induction hs generalizing x gs with
  | nil => exact .inl ⟨by simpa using h, by simpa using hlen⟩
  | cons b hs ih =>
    rw [List.length_cons, List.replicate_succ, List.foldl_cons]
    obtain ⟨hnext, hlen'⟩ | hdone := h.next hlen
    · simpa using ih hnext (by simpa using hlen')
    · rw [Instance.foldl_srcAnswer_ready _ _ hdone]
      exact .inr hdone

/-- Settles O29: an operation that is still BUSY has consumed its bytes (`Consumed.nextAll`), so that ACC is their
pattern (`Consumed.toNat_acc`), which is read bit by bit; bytes with C = 1 keep it BUSY (`Consumed.moreAll`). -/
theorem accumulatorWhileDecoding : Obligations.AccumulatorWhileDecoding := by
  unfold Obligations.AccumulatorWhileDecoding
  intro w value s x k gs bytes env later hx hready hheld hsrc henv hspoken
  obtain ⟨t, y, hrun, ht, hy, ⟨hysrc, hydec⟩, -⟩ :=
    run_decode_silent k w value _ later env s x x hx hready hheld (DecSim.refl x) henv hspoken
  have hstart := x.consumed_start w _ hsrc
  have hroom : 7 * (w.maxGroups - 1) ≤ w.bits := by cases w <;> decide
  refine ⟨t, y, hrun, ht, hy, ?registers, ?busy⟩
  case registers =>
    rw [hydec, hysrc]
    intro hbusy
    obtain ⟨hmid, hlen⟩ | hdone := hstart.nextAll w.maxGroups_pos
    · rw [List.nil_append] at hmid hlen
      have hacc := hmid.toNat_acc (Instance.foldl_srcAnswer_acc_lt _ _ (Nat.two_pow_pos _))
      refine ⟨hmid.source, by omega, hmid.offset, ?_, ?_⟩
      · rw [hacc, hmid.offset]
        exact toNat_assemble_lt _ gs
      · intro m hm
        rw [← getLsbD_assemble w.bits gs m (by omega), BitVec.getLsbD, BitVec.getLsbD, hacc]
    · exact absurd hbusy hdone
  case busy =>
    intro hC hlen
    have hlt := (Nat.le_sub_one_iff_lt w.maxGroups_pos).mp hlen
    rw [hydec]
    exact (hstart.moreAll hC (by rwa [List.length_nil, Nat.zero_add])).busy

/-! ### A decode in progress ends -/

/-- The decoder has ended its operation, or has so few group indexes left that it ends it within `n` answers of its
source, whatever they are. -/
def Instance.DecodeEndsWithin (x : Instance) (n : Nat) : Prop :=
  x.dec.state = .complete ∨
  (x.dec.state = .busy ∧ ∃ j, x.dec.offset.toNat = 7 * j ∧ j < x.dec.w.maxGroups ∧ x.dec.w.maxGroups ≤ j + n)

/-- An answer brings the end nearer: it ends the operation, or takes it to the next group index. -/
theorem Instance.DecodeEndsWithin.answer {x : Instance} {n : Nat} (h : x.DecodeEndsWithin (n + 1)) (r : SrcReply) :
    (x.srcAnswer r).DecodeEndsWithin n := by
  obtain hdone | ⟨hbusy, j, hoffset, hj, hn⟩ := h
  · rw [x.srcAnswer_ready r (by rw [hdone]; decide)]
    exact .inl hdone
  rw [Instance.srcAnswer, if_pos hbusy]
  cases (srcRead r x.src).1 with
  | fail => exact .inl rfl
  | byte b =>
    rw [Decoder.take]
    cases hb : b.getLsbD 7 with
    | false => rw [x.dec.takeByte_final b hb]; exact .inl rfl
    | true =>
      by_cases hlast : j + 1 < x.dec.w.maxGroups
      · obtain ⟨hstep, hoffset'⟩ := x.dec.takeByte_more b j hb hlast hoffset
        rw [hstep]
        exact .inr ⟨hbusy, j + 1, hoffset', hlast, by rw [Nat.add_right_comm]; exact hn⟩
      · obtain ⟨hstep, -⟩ := x.dec.takeByte_over b j hb (by omega) hoffset
        rw [hstep]
        exact .inl rfl

theorem Instance.DecodeEndsWithin.answers {x : Instance} (rs : List SrcReply) (h : x.DecodeEndsWithin rs.length) :
    (rs.foldl Instance.srcAnswer x).dec.state = .complete := by
  induction rs generalizing x with
  | nil =>
    obtain hdone | ⟨-, j, -, hj, hn⟩ := h
    · exact hdone
    · exact absurd hj (Nat.not_lt.mpr hn)
  | cons r rs ih => exact ih (h.answer r)

/-- Settles O34: the invariant bounds the group index, and every answer ends the operation or takes it to the next
(`DecodeEndsWithin.answers`). -/
theorem answeredDecodeEnds : Obligations.AnsweredDecodeEnds := by
  unfold Obligations.AnsweredDecodeEnds
  intro s k x replies hx hinv hbusy hheld hlen hspoken
  obtain ⟨j, hj, hoffset⟩ := hinv.busy_offset hbusy
  obtain ⟨t, y, hrun, -, hy, ⟨-, hydec⟩, -⟩ :=
    run_srcAnswers_silent k [] s.env replies s x x hx hheld (DecSim.refl x) (List.append_nil _).symm hspoken
  have hends : x.DecodeEndsWithin replies.length := .inr ⟨hbusy, j, hoffset, hj, by omega⟩
  refine ⟨t, y, hrun, hy, ?_⟩
  rw [hydec]
  exact hends.answers

end Sys2Proof.Machine
end

section
/-! Proof of the statement that nothing left over reaches a result (70_reset_and_hazards.md R83). -/

namespace Sys2Proof.Machine

/-! ### Two decoders in the same operation -/

/-- The decode step reads neither STATUS nor PENDING, and writes STATUS where it ends the operation. -/
theorem Decoder.take_ignores_leftovers (d : Decoder) (st : Status) (p : Bool) (a : SrcAnswer)
    (hbusy : d.state = .busy) : ({ d with status := st, pending := p } : Decoder).take a =
      { d.take a with status := if (d.take a).state = .busy then st else (d.take a).status } := by
  cases a with
  | fail => rfl
  | byte b =>
    simp only [Decoder.take]
    cases hb : b.getLsbD 7 with
    | false => simp only [Decoder.takeByte_final _ b hb]; rfl
    | true =>
      cases hfull : offsetFull d.w (d.offset + 7#7) with
      | true => simp only [Decoder.takeByte_of_full _ b hb, hfull]; rfl
      | false => simp only [Decoder.takeByte_of_not_full _ b hb, hfull, hbusy, if_true]; rfl

/-- The decoders and sources of two instances agree, but for whether a request shows and for the STATUS of an
operation before this one. -/
def DecAlike (x x' : Instance) : Prop :=
  x.src = x'.src ∧ x'.dec = { x.dec with status := x'.dec.status, pending := x'.dec.pending } ∧
    (x.dec.state ≠ .busy → x.dec.status = x'.dec.status)

/-- The start step (R51) writes every register but STATUS and PENDING. -/
theorem DecAlike.start (x x' : Instance) (w : Width) (h : x.src = x'.src) :
    DecAlike { x with dec := x.dec.start w, heldDec := none } { x' with dec := x'.dec.start w, heldDec := none } :=
  ⟨h, rfl, fun hready => absurd rfl hready⟩

theorem DecAlike.answer {x x' : Instance} (h : DecAlike x x') (r : SrcReply) :
    DecAlike (x.srcAnswer r) (x'.srcAnswer r) := by
  obtain ⟨hsrc, hdec, hstatus⟩ := h
  have hstate : x'.dec.state = x.dec.state := by rw [hdec]
  by_cases hbusy : x.dec.state = .busy
  · have hstep := x.dec.take_ignores_leftovers x'.dec.status x'.dec.pending (srcRead r x.src).1 hbusy
    rw [← hdec] at hstep
    simp only [DecAlike, Instance.srcAnswer, hstate, hbusy, if_true, ← hsrc, hstep, true_and]
    exact fun hdone => (if_neg hdone).symm
  · rw [x.srcAnswer_ready r hbusy, x'.srcAnswer_ready r (by rwa [hstate])]
    exact ⟨hsrc, hdec, hstatus⟩

theorem DecAlike.answers {x x' : Instance} (h : DecAlike x x') (rs : List SrcReply) :
    DecAlike (rs.foldl Instance.srcAnswer x) (rs.foldl Instance.srcAnswer x') := by
  induction rs generalizing x x' with
  | nil => exact h
  | cons r rs ih => exact ih (h.answer r)

/-- Whether a request shows does not matter. -/
theorem DecAlike.of_decSim {x x' y y' : Instance} (h : DecAlike x x') (hy : DecSim y x) (hy' : DecSim y' x') :
    DecAlike y y' := by
  obtain ⟨hsrc, hdec, hstatus⟩ := h
  obtain ⟨hysrc, hydec⟩ := hy
  obtain ⟨hysrc', hydec'⟩ := hy'
  refine ⟨by rw [hysrc, hsrc, hysrc'], ?_, ?_⟩
  · rw [hydec', hdec, hydec]
  · rw [hydec, hydec']
    exact hstatus

/-! ### Two encoders in the same operation -/

/-- The encode step reads no STATUS, and writes it where it ends the operation. -/
theorem Encoder.take_ignores_status (e : Encoder) (st : Status) (a : SinkAnswer) (hbusy : e.state = .busy) :
    ({ e with status := st } : Encoder).take a =
      { e.take a with status := if (e.take a).state = .busy then st else (e.take a).status } := by
  cases a with
  | fail => rfl
  | ok =>
    cases hfits : fitsSeven e.remaining with
    | true => rw [e.take_ok_last hfits, Encoder.take_ok_last { e with status := st } hfits]; rfl
    | false =>
      rw [e.take_ok_more hfits, Encoder.take_ok_more { e with status := st } hfits]
      simp only [hbusy, if_true]
      rfl

/-- The encoders of two instances agree, but for the STATUS of an operation before this one, and the sinks, which held
`before` and `before'`, have gained the same bytes. -/
def EncAlike (before before' : List Byte) (x x' : Instance) : Prop :=
  (∃ out, x.sink = before ++ out ∧ x'.sink = before' ++ out) ∧ x'.enc = { x.enc with status := x'.enc.status } ∧
    (x.enc.state ≠ .busy → x.enc.status = x'.enc.status)

/-- The start step (R59) writes every register but STATUS and PENDING. -/
theorem EncAlike.start (x x' : Instance) (w : Width) (value : Word) (h : x.enc.pending = none)
    (h' : x'.enc.pending = none) :
    EncAlike x.sink x'.sink { x with enc := x.enc.start w value, heldEnc := none }
      { x' with enc := x'.enc.start w value, heldEnc := none } := by
  refine ⟨⟨[], (List.append_nil _).symm, (List.append_nil _).symm⟩, ?_, fun hready => absurd rfl hready⟩
  simp only [Encoder.start, h, h']

theorem EncAlike.answer {before before' : List Byte} {x x' : Instance} (h : EncAlike before before' x x')
    (a : SinkAnswer) : EncAlike before before' (x.sinkAnswer a) (x'.sinkAnswer a) := by
  obtain ⟨⟨out, hsink, hsink'⟩, henc, hstatus⟩ := h
  have hstate : x'.enc.state = x.enc.state := by rw [henc]
  have hoffered : x'.enc.offered = x.enc.offered := by rw [henc]; rfl
  by_cases hbusy : x.enc.state = .busy
  · have hstep := x.enc.take_ignores_status x'.enc.status a hbusy
    rw [← henc] at hstep
    simp only [EncAlike, Instance.sinkAnswer, hstate, hbusy, if_true, hstep, hoffered, hsink, hsink']
    refine ⟨?_, trivial, fun hdone => (if_neg hdone).symm⟩
    cases a with
    | ok => exact ⟨out ++ [x.enc.offered], List.append_assoc .., List.append_assoc ..⟩
    | fail => exact ⟨out, rfl, rfl⟩
  · rw [x.sinkAnswer_ready a hbusy, x'.sinkAnswer_ready a (by rwa [hstate])]
    exact ⟨⟨out, hsink, hsink'⟩, henc, hstatus⟩

theorem EncAlike.answers {before before' : List Byte} {x x' : Instance} (h : EncAlike before before' x x')
    (as : List SinkAnswer) :
    EncAlike before before' (as.foldl Instance.sinkAnswer x) (as.foldl Instance.sinkAnswer x') := by
  induction as generalizing x x' with
  | nil => exact h
  | cons a as ih => exact ih (h.answer a)

/-- Settles O36: silences apart, each run is its start step and the fold of the same answers (`run_decode_silent`,
`run_encode_silent`); the start steps make the units alike (`DecAlike.start`, `EncAlike.start`) and every answer keeps
them so. -/
theorem nothingCarriedOver : Obligations.NothingCarriedOver := by
  unfold Obligations.NothingCarriedOver
  refine ⟨?decoder, ?encoder⟩
  case decoder =>
    intro w value value' s s' x x' k k' replies hx hx' hstate hstate' hheld hheld' hsrc hspoken hspoken'
    obtain ⟨t, y, hrun, -, hy, hysim, -⟩ :=
      run_decode_silent k w value replies [] s.env s x x hx (UnitState.ne_busy_of_idle_or_complete hstate) hheld
        (DecSim.refl x) (List.append_nil _).symm hspoken
    obtain ⟨t', y', hrun', -, hy', hysim', -⟩ :=
      run_decode_silent k' w value' replies [] s'.env s' x' x' hx' (UnitState.ne_busy_of_idle_or_complete hstate')
        hheld' (DecSim.refl x') (List.append_nil _).symm hspoken'
    obtain ⟨hysrc, hydec, hystatus⟩ := ((DecAlike.start x x' w hsrc).answers replies).of_decSim hysim hysim'
    exact ⟨t, t', y, y', hrun, hrun', hy, hy', hysrc, hydec, fun hdone => hystatus (by rw [hdone]; decide)⟩
  case encoder =>
    intro w value s s' x x' k k' answers hx hx' hstate hstate' hpending hpending' hheld hheld' hspoken hspoken'
    obtain ⟨t, y, hrun, -, hy, ⟨hysink, hyenc, -⟩, -⟩ :=
      run_encode_silent k w value answers [] s.env s x x hx (UnitState.ne_busy_of_idle_or_complete hstate) hpending
        hheld rfl rfl (List.append_nil _).symm hspoken
    obtain ⟨t', y', hrun', -, hy', ⟨hysink', hyenc', -⟩, -⟩ :=
      run_encode_silent k' w value answers [] s'.env s' x' x' hx' (UnitState.ne_busy_of_idle_or_complete hstate')
        hpending' hheld' rfl rfl (List.append_nil _).symm hspoken'
    obtain ⟨⟨out, hsink, hsink'⟩, henc, hstatus⟩ := (EncAlike.start x x' w value hpending hpending').answers answers
    refine ⟨t, t', y, y', out, hrun, hrun', hy, hy', hysink.trans hsink, hysink'.trans hsink', ?_, ?_⟩
    · rw [hyenc', henc, hyenc]
    · rw [hyenc, hyenc']
      exact fun hdone => hstatus (by rw [hdone]; decide)

end Sys2Proof.Machine
end

section
/-! Proofs of the statements on the invariant and on reset (10_state.md R13, R14, R17, R18, R20, R23; 60_exceptions.md
R70; 70_reset_and_hazards.md R81, R82). -/

namespace Sys2Proof.Machine

/-! ### What keeps a decoder's invariant -/

theorem Decoder.inv_of_idle (d : Decoder) (hstate : d.state = .idle) (hpending : d.pending = false)
    (hresult : d.result = none) : d.Inv where
  request h := by simp [hpending] at h
  result_valid := by simp [hresult, hstate]
  result_value v h := by simp [hresult] at h
  own_codes h := by simp [hstate] at h
  busy_offset h := by simp [hstate] at h
  busy_acc h := by simp [hstate] at h
  done_offset h := by simp [hstate] at h
  narrow_acc h := absurd hstate h

theorem Decoder.Inv.showRequest {d : Decoder} (h : d.Inv) (hbusy : d.state = .busy) :
    ({ d with pending := true } : Decoder).Inv where
  request _ := hbusy
  result_valid := h.result_valid
  result_value := h.result_value
  own_codes := h.own_codes
  busy_offset := h.busy_offset
  busy_acc := h.busy_acc
  done_offset := h.done_offset
  narrow_acc := h.narrow_acc

/-- The start step (R51) establishes the invariant whatever the registers held. -/
theorem Decoder.inv_start (d : Decoder) (w : Width) : (d.start w).Inv where
  request _ := rfl
  result_valid := by simp
  result_value v h := by simp at h
  own_codes h := by simp at h
  busy_offset _ := ⟨0, w.maxGroups_pos, rfl⟩
  busy_acc _ := by simp
  done_offset h := by simp at h
  narrow_acc _ := Nat.two_pow_pos _

/-- ACC after a byte stays below 2^OFFSET. -/
theorem Decoder.toNat_accumulate_lt (d : Decoder) (b : Byte) (hacc : d.acc.toNat < 2 ^ d.offset.toNat) :
    (d.accumulate b).toNat < 2 ^ (d.offset.toNat + 7) := by
  rw [Decoder.accumulate, BitVec.toNat_or]
  apply Nat.or_lt_two_pow
  · calc (zext d.w.bits d.acc).toNat ≤ d.acc.toNat := by
          rw [zext, BitVec.toNat_setWidth]; exact Nat.mod_le _ _
      _ < 2 ^ d.offset.toNat := hacc
      _ ≤ 2 ^ (d.offset.toNat + 7) := Nat.pow_le_pow_right (by decide) (Nat.le_add_right _ 7)
  · have hdata : (zext d.w.bits (dataBits b)).toNat < 2 ^ 7 := by
      rw [zext, BitVec.toNat_setWidth]
      exact (Nat.mod_le _ _).trans_lt (dataBits b).isLt
    rw [shl_toNat, Nat.add_comm, Nat.pow_add]
    exact (Nat.mod_le _ _).trans_lt (Nat.mul_lt_mul_of_pos_right hdata (Nat.two_pow_pos _))

/-- A byte takes OFFSET to the next multiple of 7. -/
theorem Decoder.offset_add_seven (d : Decoder) (j : Nat) (hj : j < d.w.maxGroups) (hoffset : d.offset.toNat = 7 * j) :
    (d.offset + 7#7).toNat = 7 * (j + 1) := by
  have hmax : d.w.maxGroups ≤ 10 := by cases d.w <;> decide
  rw [BitVec.toNat_add, hoffset]
  simp
  omega

/-- A decode step keeps the invariant of a BUSY decoder: it ends the operation with its own code and the signed
reading of ACC, or goes on at the next group index. -/
theorem Decoder.Inv.take {d : Decoder} (h : d.Inv) (hbusy : d.state = .busy) (a : SrcAnswer) : (d.take a).Inv := by
  obtain ⟨j, hj, hoffset⟩ := h.busy_offset hbusy
  have hnarrow := d.take_acc_lt a (h.narrow_acc (by rw [hbusy]; decide))
  have hresult : d.result = none := by
    by_contra hsome
    have := h.result_valid.mp (Option.isSome_iff_ne_none.mpr hsome)
    simp [hbusy] at this
  cases a with
  | fail =>
    rw [d.take_fail] at hnarrow ⊢
    exact {
      request := by simp
      result_valid := by simp
      result_value := by simp
      own_codes := by simp
      busy_offset := by simp
      busy_acc := by simp
      done_offset := fun _ => ⟨j, hj.le, hoffset⟩
      narrow_acc := fun _ => hnarrow }
  | byte b =>
    have hoffset' := d.offset_add_seven j hj hoffset
    rw [Decoder.take] at hnarrow ⊢
    cases hb : b.getLsbD 7 with
    | false =>
      rw [d.takeByte_final b hb] at hnarrow ⊢
      exact {
        request := by simp
        result_valid := by simp
        result_value := by simp [zext_zext]
        own_codes := by simp
        busy_offset := by simp
        busy_acc := by simp
        done_offset := fun _ => ⟨j + 1, hj, hoffset'⟩
        narrow_acc := fun _ => hnarrow }
    | true =>
      by_cases hlast : j + 1 < d.w.maxGroups
      · obtain ⟨hstep, -⟩ := d.takeByte_more b j hb hlast hoffset
        rw [hstep] at hnarrow ⊢
        exact {
          request := by simp
          result_valid := by simp [hresult, hbusy]
          result_value := by simp [hresult]
          own_codes := by simp [hbusy]
          busy_offset := fun _ => ⟨j + 1, hlast, hoffset'⟩
          busy_acc := fun _ => by
            rw [toNat_zext_register, hoffset', Nat.mul_succ, ← hoffset]
            exact d.toNat_accumulate_lt b (h.busy_acc hbusy)
          done_offset := by simp [hbusy]
          narrow_acc := fun _ => hnarrow }
      · obtain ⟨hstep, -⟩ := d.takeByte_over b j hb (by omega) hoffset
        rw [hstep] at hnarrow ⊢
        exact {
          request := by simp
          result_valid := by simp
          result_value := by simp
          own_codes := by simp
          busy_offset := by simp
          busy_acc := by simp
          done_offset := fun _ => ⟨j + 1, hj, hoffset'⟩
          narrow_acc := fun _ => hnarrow }

/-! ### What keeps an encoder's invariant -/

theorem Encoder.inv_of_idle (e : Encoder) (hstate : e.state = .idle) (hpending : e.pending = none) : e.Inv where
  request h := by simp [hpending] at h
  request_byte b h := by simp [hpending] at h
  own_codes h := by simp [hstate] at h
  narrow_rem h := absurd hstate h

theorem Encoder.Inv.offered_eq_formed {e : Encoder} (h : e.Inv) : e.offered = e.formed := by
  apply e.offered_eq_formed
  cases hpending : e.pending with
  | none => exact .inl rfl
  | some b => exact .inr (congrArg some (h.request_byte b hpending))

theorem Encoder.Inv.showByte {e : Encoder} (h : e.Inv) (hbusy : e.state = .busy) :
    ({ e with pending := some e.offered } : Encoder).Inv where
  request _ := hbusy
  request_byte b hb := by
    obtain rfl : e.offered = b := Option.some.inj hb
    exact h.offered_eq_formed
  own_codes := h.own_codes
  narrow_rem := h.narrow_rem

/-- The start step (R59): a unit that is not BUSY has no byte on offer. -/
theorem Encoder.Inv.start {e : Encoder} (h : e.Inv) (hready : e.state ≠ .busy) (w : Width) (value : Word) :
    (e.start w value).Inv := by
  have hpending : e.pending = none := by
    by_contra hsome
    exact hready (h.request (Option.isSome_iff_ne_none.mpr hsome))
  exact {
    request := by simp [hpending]
    request_byte := by simp [hpending]
    own_codes := by simp
    narrow_rem := fun _ => by
      rw [Encoder.start_rem, operand, toNat_zext_register]
      exact (zext w.bits value).isLt }

/-- An encode step keeps the invariant of a BUSY encoder. -/
theorem Encoder.Inv.take {e : Encoder} (h : e.Inv) (hbusy : e.state = .busy) (a : SinkAnswer) : (e.take a).Inv := by
  have hnarrow := h.narrow_rem (by rw [hbusy]; decide)
  cases a with
  | fail =>
    rw [e.take_fail]
    exact { request := by simp, request_byte := by simp, own_codes := by simp, narrow_rem := fun _ => hnarrow }
  | ok =>
    cases hfits : fitsSeven e.remaining with
    | true =>
      rw [e.take_ok_last hfits]
      exact { request := by simp, request_byte := by simp, own_codes := by simp, narrow_rem := fun _ => hnarrow }
    | false =>
      rw [e.take_ok_more hfits]
      exact {
        request := by simp
        request_byte := by simp
        own_codes := by simp [hbusy]
        narrow_rem := fun _ => by
          rw [toNat_zext_register]
          exact (lsr e.remaining 7).isLt }

/-! ### The machine's invariant -/

/-- Every move keeps the invariant of both units of every instance: a reset makes them IDLE, and any other move does
to each unit one of the things of `Move.effect_dec` and `Move.effect_enc`. -/
theorem Move.effect_inv (m : Move) (n j : Nat) (x : Instance) (hdec : x.dec.Inv) (henc : x.enc.Inv) :
    (m.effect n j x).dec.Inv ∧ (m.effect n j x).enc.Inv := by
  cases hm : m.isReset with
  | true =>
    cases m <;> cases hm
    exact ⟨Decoder.inv_of_idle _ rfl rfl rfl, Encoder.inv_of_idle _ rfl rfl⟩
  | false =>
    constructor
    · obtain hy | ⟨hbusy, hy⟩ | ⟨-, -, w, hy⟩ | ⟨hbusy, -, a, hy⟩ := Move.effect_dec m n j x hm <;> rw [hy]
      · exact hdec
      · exact hdec.showRequest hbusy
      · exact x.dec.inv_start w
      · exact hdec.take hbusy a
    · obtain hy | ⟨hbusy, hy⟩ | ⟨hready, -, w, v, hy⟩ | ⟨hbusy, -, a, hy⟩ := Move.effect_enc m n j x hm <;> rw [hy]
      · exact henc
      · exact henc.showByte hbusy
      · exact henc.start hready w v
      · exact henc.take hbusy a

/-- No instance comes or goes. -/
theorem length_of_getElem?_map {l l' : List Instance} {f : Nat → Instance → Instance}
    (h : ∀ j, l'[j]? = l[j]?.map (f j)) : l'.length = l.length := by
  apply eq_of_forall_ge_iff
  intro n
  rw [← List.getElem?_eq_none_iff, ← List.getElem?_eq_none_iff, h n, Option.map_eq_none_iff]

/-- Settles O48: `step_next` says what the step's move does to each instance, and `Move.effect_inv` that this keeps
the invariant of its units. -/
theorem invariantKeptByStep : Obligations.InvariantKeptByStep := by
  unfold Obligations.InvariantKeptByStep
  intro s t hinv hstep
  have hnext := step_next s t hstep
  constructor
  case some_instance =>
    rw [← List.length_pos_iff, length_of_getElem?_map hnext, List.length_pos_iff]
    exact hinv.some_instance
  case units =>
    intro y hy
    obtain ⟨j, hj⟩ := List.mem_iff_getElem?.mp hy
    rw [hnext j] at hj
    obtain ⟨x, hx, rfl⟩ := Option.map_eq_some_iff.mp hj
    obtain ⟨hdec, henc⟩ := hinv.units x (List.mem_of_getElem? hx)
    exact Move.effect_inv _ _ _ x hdec henc

/-- Every instance of the machine right after reset is the same. -/
theorem mem_resetWith {n : Nat} {x : Instance} (h : x ∈ (State.resetWith n).instances) : x = Instance.reset :=
  List.eq_of_mem_replicate h

theorem inv_resetWith (n : Nat) (hn : 0 < n) : (State.resetWith n).Inv where
  some_instance := by
    rw [← List.length_pos_iff]
    simpa [State.resetWith] using hn
  units x hx := by
    rw [mem_resetWith hx]
    exact ⟨Decoder.inv_of_idle _ rfl rfl rfl, Encoder.inv_of_idle _ rfl rfl⟩

/-- Settles O47: every unit is IDLE with no request and no RESULT (`inv_resetWith`). -/
theorem invariantAtReset : Obligations.InvariantAtReset := by
  unfold Obligations.InvariantAtReset
  exact ⟨inv_resetWith Config.numInstances (by decide), inv_resetWith⟩

/-- Settles O45: every instance is `Instance.reset` (`mem_resetWith`). -/
theorem resetState : Obligations.ResetState := by
  unfold Obligations.ResetState
  refine ⟨?_, fun n => List.length_replicate, rfl⟩
  intro n k x hx
  obtain rfl := mem_resetWith (List.mem_of_getElem? hx)
  exact ⟨rfl, rfl, rfl, rfl, rfl, rfl, rfl⟩

/-! ### The reset signal -/

/-- A reset, seen from instance `k`. -/
theorem getElem?_resetSignal (s : State) (choices : List AbortChoice) (k : Nat) (x : Instance)
    (hx : s.instances[k]? = some x) : (s.resetSignal choices).instances[k]? =
      some (x.afterReset ((choices[k]?).getD { srcTook := false, sinkTook := false }) s.draws k) := by
  simp [State.resetSignal, getElem?_resetAll, hx]

/-- R82: a read request outstanding at a reset took the head of the source or nothing. -/
theorem Instance.afterReset_src (x : Instance) (c : AbortChoice) (n k : Nat) :
    (x.afterReset c n k).src = if x.dec.pending && c.srcTook then x.src.tail else x.src := by
  have hread : (srcRead .deliver x.src).2 = x.src.tail := by cases x.src <;> rfl
  rw [← hread]
  rfl

/-- R82: a byte on offer at a reset was appended or not. -/
theorem Instance.afterReset_sink_some (x : Instance) (c : AbortChoice) (n k : Nat) (b : Byte)
    (h : x.enc.pending = some b) :
    (x.afterReset c n k).sink = if c.sinkTook then x.sink ++ [b] else x.sink := by
  simp [Instance.afterReset, h, sinkWrite]

theorem Instance.afterReset_sink_none (x : Instance) (c : AbortChoice) (n k : Nat) (h : x.enc.pending = none) :
    (x.afterReset c n k).sink = x.sink := by
  simp [Instance.afterReset, h]

/-- Settles O46: a reset is `Instance.afterReset` at every instance (`getElem?_resetSignal`); the move that lists a
choice for every instance the machine has realises any choice of outcomes. -/
theorem resetSignal : Obligations.ResetSignal := by
  unfold Obligations.ResetSignal
  refine ⟨?abort, ?outcomes⟩
  case abort =>
    intro s choices rest henv
    refine ⟨_, step_cons s _ rest henv, length_resetAll .., rfl, rfl, ?_⟩
    intro k x hx
    refine ⟨_, getElem?_resetSignal _ choices k x hx, rfl, rfl, rfl, rfl, rfl, ?_, ?_, ?_, ?_⟩
    · intro hpending
      simp [Instance.afterReset_src, hpending]
    · intro hpending
      rw [Instance.afterReset_src]
      split
      · exact .inr rfl
      · exact .inl rfl
    · exact x.afterReset_sink_none _ _ _
    · intro b hb
      rw [x.afterReset_sink_some _ _ _ b hb]
      split
      · exact .inr rfl
      · exact .inl rfl
  case outcomes =>
    intro s took
    refine ⟨(List.range s.instances.length).map took,
      fun rest => ⟨_, step_cons { s with env := _ :: rest } _ rest rfl, ?_⟩⟩
    intro k x hx
    obtain ⟨hk, -⟩ := List.getElem?_eq_some_iff.mp hx
    have hchoice : ((List.range s.instances.length).map took)[k]? = some (took k) := by simp [hk]
    refine ⟨_, getElem?_resetSignal _ _ k x hx, ?_, ?_⟩
    · intro hpending
      simp [Instance.afterReset_src, hpending, hchoice]
    · intro b hb
      rw [x.afterReset_sink_some _ _ _ b hb, hchoice]
      rfl

end Sys2Proof.Machine
end

section
/-! What concerns one unit of an instance and what concerns the other (00_scope.md R3, 20_memory.md R37), and the
proofs of the statements that follow from it. -/

namespace Sys2Proof.Machine

/-! ### The two sides of an instance -/

/-- `f` reads and writes only the decoder, its source and the command held for it. -/
def DecoderSide (f : Instance → Instance) : Prop :=
  ∀ (x : Instance) (e : Encoder) (bytes : List Byte) (h : Option Held),
    f { x with enc := e, sink := bytes, heldEnc := h } = { f x with enc := e, sink := bytes, heldEnc := h }

/-- `f` reads and writes only the encoder, its sink and the command held for it. -/
def EncoderSide (f : Instance → Instance) : Prop :=
  ∀ (x : Instance) (d : Decoder) (bytes : List Byte) (h : Option Held),
    f { x with dec := d, src := bytes, heldDec := h } = { f x with dec := d, src := bytes, heldDec := h }

/-- `f` stays on the side of unit `u`. -/
def UnitName.Side : UnitName → (Instance → Instance) → Prop
  | .decoder => DecoderSide
  | .encoder => EncoderSide

theorem DecoderSide.frame {f : Instance → Instance} (hf : DecoderSide f) (x : Instance) :
    (f x).enc = x.enc ∧ (f x).sink = x.sink ∧ (f x).heldEnc = x.heldEnc := by
  have h := hf x x.enc x.sink x.heldEnc
  exact ⟨(congrArg Instance.enc h :), (congrArg Instance.sink h :), (congrArg Instance.heldEnc h :)⟩

theorem EncoderSide.frame {f : Instance → Instance} (hf : EncoderSide f) (x : Instance) :
    (f x).dec = x.dec ∧ (f x).src = x.src ∧ (f x).heldDec = x.heldDec := by
  have h := hf x x.dec x.src x.heldDec
  exact ⟨(congrArg Instance.dec h :), (congrArg Instance.src h :), (congrArg Instance.heldDec h :)⟩

/-- What is done on the two sides can be done in either order. -/
theorem DecoderSide.comm {f g : Instance → Instance} (hf : DecoderSide f) (hg : EncoderSide g) (x : Instance) :
    f (g x) = g (f x) := by
  obtain ⟨hdec, hsrc, hheldDec⟩ := hg.frame x
  obtain ⟨henc, hsink, hheldEnc⟩ := hf.frame x
  have hgx : g x = { x with enc := (g x).enc, sink := (g x).sink, heldEnc := (g x).heldEnc } := by
    rw [← hdec, ← hsrc, ← hheldDec]
  have hfx : f x = { x with dec := (f x).dec, src := (f x).src, heldDec := (f x).heldDec } := by
    rw [← henc, ← hsink, ← hheldEnc]
  calc f (g x) = { f x with enc := (g x).enc, sink := (g x).sink, heldEnc := (g x).heldEnc } := by
        rw [hgx]; exact hf x _ _ _
    _ = { g x with dec := (f x).dec, src := (f x).src, heldDec := (f x).heldDec } := rfl
    _ = g (f x) := by rw [hfx]; exact (hg x _ _ _).symm

theorem UnitName.Side.comm {u u' : UnitName} {f g : Instance → Instance} (hf : u.Side f) (hg : u'.Side g) (hne : u ≠ u')
    (x : Instance) : f (g x) = g (f x) := by
  cases u with
  | decoder => cases u' with
    | decoder => exact absurd rfl hne
    | encoder => exact DecoderSide.comm hf hg x
  | encoder => cases u' with
    | decoder => exact (DecoderSide.comm hg hf x).symm
    | encoder => exact absurd rfl hne

/-! ### The side of each operation -/

theorem decoderSide_presentDecode (w : Width) (value : Word) : DecoderSide (fun x => x.presentDecode w value) := by
  intro x e bytes h
  simp only [Instance.presentDecode]
  split <;> rfl

theorem encoderSide_presentEncode (w : Width) (value : Word) : EncoderSide (fun x => x.presentEncode w value) := by
  intro x d bytes h
  simp only [Instance.presentEncode]
  split <;> rfl

theorem decoderSide_srcAnswer (r : SrcReply) : DecoderSide (fun x => x.srcAnswer r) := by
  intro x e bytes h
  simp only [Instance.srcAnswer]
  split <;> rfl

theorem encoderSide_sinkAnswer (a : SinkAnswer) : EncoderSide (fun x => x.sinkAnswer a) := by
  intro x d bytes h
  simp only [Instance.sinkAnswer]
  split <;> rfl

theorem side_withdraw (u : UnitName) : u.Side (fun x => x.withdraw u) := by
  cases u <;> exact fun _ _ _ _ => rfl

theorem decoderSide_waitDecoder : DecoderSide Instance.waitDecoder := by
  intro x e bytes h
  simp only [Instance.waitDecoder]
  split
  · exact decoderSide_presentDecode _ _ x e bytes h
  · rfl

theorem encoderSide_waitEncoder : EncoderSide Instance.waitEncoder := by
  intro x d bytes h
  simp only [Instance.waitEncoder]
  split
  · exact encoderSide_presentEncode _ _ x d bytes h
  · rfl

/-- Presenting the command of a code is presenting it to the unit that OP[1] names, with the width OP[0] names. -/
theorem present_decodeCommand_of_decode {op : BitVec 2} (h : opIsDecode op = true) (value : Word) (x : Instance) :
    x.present (decodeCommand op value) = x.presentDecode (opWidth op) value := by
  rw [decodeCommand, h]
  cases opWidth op <;> rfl

theorem present_decodeCommand_of_encode {op : BitVec 2} (h : opIsDecode op = false) (value : Word) (x : Instance) :
    x.present (decodeCommand op value) = x.presentEncode (opWidth op) value := by
  rw [decodeCommand, h]
  cases opWidth op <;> rfl

/-- A move that concerns unit `u` of instance `k` updates that instance on that side, whatever the model's own fields.
-/
theorem Move.perform_of_unit {m : Move} {k : Nat} {u : UnitName} (h : m.unit = some (k, u)) :
    ∃ f, u.Side f ∧ ∀ s : State, ∃ s' : State, s'.instances = s.instances ∧ perform m s = s'.update k f := by
  cases m with
  | command k op value =>
    cases hop : opIsDecode op with
    | true =>
      obtain ⟨rfl, rfl⟩ : k = _ ∧ UnitName.decoder = u := by simpa [Move.unit, hop] using h
      refine ⟨fun x => x.presentDecode (opWidth op) value, decoderSide_presentDecode _ _,
        fun s => ⟨{ s with sel := k }, rfl, ?_⟩⟩
      simp only [perform, exec_eq_update, present_decodeCommand_of_decode hop]
    | false =>
      obtain ⟨rfl, rfl⟩ : k = _ ∧ UnitName.encoder = u := by simpa [Move.unit, hop] using h
      refine ⟨fun x => x.presentEncode (opWidth op) value, encoderSide_presentEncode _ _,
        fun s => ⟨{ s with sel := k }, rfl, ?_⟩⟩
      simp only [perform, exec_eq_update, present_decodeCommand_of_encode hop]
  | withdraw k u => cases h; exact ⟨_, side_withdraw u, fun s => ⟨s, rfl, rfl⟩⟩
  | srcAnswer k r => cases h; exact ⟨fun x => x.srcAnswer r, decoderSide_srcAnswer r, fun s => ⟨s, rfl, rfl⟩⟩
  | sinkAnswer k a => cases h; exact ⟨fun x => x.sinkAnswer a, encoderSide_sinkAnswer a, fun s => ⟨s, rfl, rfl⟩⟩
  | feedSrc k bytes => cases h; exact ⟨_, fun _ _ _ _ => rfl, fun s => ⟨s, rfl, rfl⟩⟩
  | wait => cases h
  | connectSrc k bytes => cases h
  | connectSink k bytes => cases h
  | read k r => cases h
  | reset choices => cases h

/-- Settles O38: the move updates one instance, on one side (`Move.perform_of_unit`). -/
theorem otherUnitsUntouched : Obligations.OtherUnitsUntouched := by
  unfold Obligations.OtherUnitsUntouched
  intro s t m k u hm hperform
  obtain ⟨f, hside, hupdate⟩ := Move.perform_of_unit hm
  obtain ⟨s', hs', hs⟩ := hupdate s
  obtain ⟨x, hx, rfl⟩ := State.update_next s' t k f (hs.symm.trans hperform)
  rw [hs'] at hx ⊢
  refine ⟨List.length_set, ?others, ?own⟩
  case others =>
    intro j hj
    simp only [getElem?_set_instance _ _ _ _ _ hx, hj, if_false]
  case own =>
    intro x' y hx' hy
    obtain rfl : x = x' := Option.some.inj (hx.symm.trans hx')
    simp only [getElem?_set_instance _ _ _ _ _ hx, if_true, Option.some.injEq] at hy
    subst hy
    constructor
    · rintro rfl
      exact EncoderSide.frame hside x
    · rintro rfl
      exact DecoderSide.frame hside x

/-- Settles O37: each move updates one instance, on one side (`Move.perform_of_unit`); updates of different instances
commute as they do in any list, and those of one instance because their sides differ (`UnitName.Side.comm`). -/
theorem unitsCommute : Obligations.UnitsCommute := by
  unfold Obligations.UnitsCommute
  intro s m m' k k' u u' hm hm' hne hk hk'
  obtain ⟨f, hf, hupdate⟩ := Move.perform_of_unit hm
  obtain ⟨f', hf', hupdate'⟩ := Move.perform_of_unit hm'
  have answer : ∀ (s : State) (x : Instance), s.instances[k]? = some x →
      ∃ t, perform m s = .next t ∧ t.instances = s.instances.set k (f x) := by
    intro s x hx
    obtain ⟨s', hs', hs⟩ := hupdate s
    exact ⟨_, hs.trans (State.update_eq s' k f x (hs' ▸ hx)), by rw [hs']⟩
  have answer' : ∀ (s : State) (x : Instance), s.instances[k']? = some x →
      ∃ t, perform m' s = .next t ∧ t.instances = s.instances.set k' (f' x) := by
    intro s x hx
    obtain ⟨s', hs', hs⟩ := hupdate' s
    exact ⟨_, hs.trans (State.update_eq s' k' f' x (hs' ▸ hx)), by rw [hs']⟩
  have hx := List.getElem?_eq_getElem hk
  have hx' := List.getElem?_eq_getElem hk'
  obtain ⟨s1, hs1, hi1⟩ := answer s _ hx
  obtain ⟨s2, hs2, hi2⟩ := answer' s _ hx'
  by_cases hkk : k = k'
  · subst hkk
    have huu : u ≠ u' := fun huu => hne (by rw [huu])
    obtain ⟨t1, ht1, hj1⟩ := answer' s1 (f s.instances[k]) (by simp [hi1, hk])
    obtain ⟨t2, ht2, hj2⟩ := answer s2 (f' s.instances[k]) (by simp [hi2, hk])
    refine ⟨s1, s2, t1, t2, hs1, ht1, hs2, ht2, ?_⟩
    rw [hj1, hj2, hi1, hi2, List.set_set, List.set_set]
    exact congrArg _ (hf.comm hf' huu _).symm
  · obtain ⟨t1, ht1, hj1⟩ := answer' s1 _ (by rw [hi1, List.getElem?_set_ne hkk]; exact hx')
    obtain ⟨t2, ht2, hj2⟩ := answer s2 _ (by rw [hi2, List.getElem?_set_ne (Ne.symm hkk)]; exact hx)
    refine ⟨s1, s2, t1, t2, hs1, ht1, hs2, ht2, ?_⟩
    rw [hj1, hj2, hi1, hi2]
    exact List.set_comm _ _ hkk

end Sys2Proof.Machine
end

section
/-! Proofs of the statements on presenting a command (10_state.md R22, 30_encoding.md R48, R49;
70_reset_and_hazards.md R85). -/

namespace Sys2Proof.Machine

/-- A decode command presented at the port of an instance leaves its streams, its STATUS and PENDING and its encoder.
-/
theorem Instance.presentDecode_frame (x : Instance) (w : Width) (value : Word) :
    (x.presentDecode w value).src = x.src ∧ (x.presentDecode w value).sink = x.sink ∧
    (x.presentDecode w value).dec.status = x.dec.status ∧ (x.presentDecode w value).dec.pending = x.dec.pending ∧
    (x.presentDecode w value).enc = x.enc ∧ (x.presentDecode w value).heldEnc = x.heldEnc := by
  unfold Instance.presentDecode
  split <;> exact ⟨rfl, rfl, rfl, rfl, rfl, rfl⟩

/-- An encode command presented at the port of an instance leaves its streams, its STATUS and PENDING and its decoder.
-/
theorem Instance.presentEncode_frame (x : Instance) (w : Width) (value : Word) :
    (x.presentEncode w value).src = x.src ∧ (x.presentEncode w value).sink = x.sink ∧
    (x.presentEncode w value).enc.status = x.enc.status ∧ (x.presentEncode w value).enc.pending = x.enc.pending ∧
    (x.presentEncode w value).dec = x.dec ∧ (x.presentEncode w value).heldDec = x.heldDec := by
  unfold Instance.presentEncode
  split <;> exact ⟨rfl, rfl, rfl, rfl, rfl, rfl⟩

/-- The frame of the four commands at the instance they are presented at. -/
theorem Instance.present_frame (x : Instance) (i : Instr) :
    (x.present i).src = x.src ∧ (x.present i).sink = x.sink ∧
    (x.present i).dec.status = x.dec.status ∧ (x.present i).dec.pending = x.dec.pending ∧
    (x.present i).enc.status = x.enc.status ∧ (x.present i).enc.pending = x.enc.pending ∧
    (i = .dec32 (encodeValue i) ∨ i = .dec64 (encodeValue i) →
      (x.present i).enc = x.enc ∧ (x.present i).heldEnc = x.heldEnc) ∧
    (i = .enc32 (encodeValue i) ∨ i = .enc64 (encodeValue i) →
      (x.present i).dec = x.dec ∧ (x.present i).heldDec = x.heldDec) := by
  cases hop : opIsDecode (encodeOp i) with
  | true =>
    have hpresent := present_decodeCommand_of_decode hop (encodeValue i) x
    rw [decodeCommand_encode] at hpresent
    obtain ⟨hsrc, hsink, hstatus, hpending, henc, hheld⟩ := x.presentDecode_frame (opWidth (encodeOp i)) (encodeValue i)
    rw [hpresent]
    refine ⟨hsrc, hsink, hstatus, hpending, congrArg Encoder.status henc, congrArg Encoder.pending henc,
      fun _ => ⟨henc, hheld⟩, ?_⟩
    rintro (hi | hi) <;> (rw [hi] at hop; simp [encodeOp, opIsDecode] at hop)
  | false =>
    have hpresent := present_decodeCommand_of_encode hop (encodeValue i) x
    rw [decodeCommand_encode] at hpresent
    obtain ⟨hsrc, hsink, hstatus, hpending, hdec, hheld⟩ := x.presentEncode_frame (opWidth (encodeOp i)) (encodeValue i)
    rw [hpresent]
    refine ⟨hsrc, hsink, congrArg Decoder.status hdec, congrArg Decoder.pending hdec, hstatus, hpending, ?_,
      fun _ => ⟨hdec, hheld⟩⟩
    rintro (hi | hi) <;> (rw [hi] at hop; simp [encodeOp, opIsDecode] at hop)

/-- Settles O13: `exec` replaces the selected instance (`exec_next`), of which a command leaves the rest as it is
(`Instance.present_frame`). -/
theorem commandFrame : Obligations.CommandFrame := by
  unfold Obligations.CommandFrame
  intro i s t hexec
  obtain ⟨x, hx, rfl⟩ := exec_next i s t hexec
  refine ⟨rfl, rfl, rfl, rfl, List.length_set, ?others, ?own⟩
  case others =>
    intro k hk
    simp only [getElem?_set_instance _ _ _ _ _ hx, hk, if_false]
  case own =>
    intro x' y hx' hy
    obtain rfl : x = x' := Option.some.inj (hx.symm.trans hx')
    simp only [getElem?_set_instance _ _ _ _ _ hx, if_true, Option.some.injEq] at hy
    subst hy
    exact x.present_frame i

/-- R48: ENC32 reads VALUE[31:0] only. -/
theorem operand_w32_congr {v v' : Word} (h : v.extractLsb' 0 32 = v'.extractLsb' 0 32) :
    operand .w32 v = operand .w32 v' := by
  have hzext : ∀ v : Word, zext 32 v = v.extractLsb' 0 32 := fun v => BitVec.setWidth_eq_extractLsb' (by decide)
  exact congrArg (zext 64) ((hzext v).trans (h.trans (hzext v').symm))

/-- Settles O12: `exec` answers where the port exists (`exec_of_instance`); a ready decoder's start step has no
operand and ENC32's has VALUE[31:0] (`operand_w32_congr`). -/
theorem everyCommandIsTaken : Obligations.EveryCommandIsTaken := by
  unfold Obligations.EveryCommandIsTaken
  intro s x hx
  refine ⟨fun op value => ⟨_, exec_of_instance _ s x hx⟩, ?decode, ?encode⟩
  case decode =>
    intro hready v v'
    have hexec : ∀ w value, exec (decodeCommand (decodeOp w) value) s = _ :=
      fun w value => exec_decodeOp_ready s x w value hx hready
    exact ⟨(hexec .w32 v).trans (hexec .w32 v').symm, (hexec .w64 v).trans (hexec .w64 v').symm⟩
  case encode =>
    intro hready v v' hv
    have hexec : ∀ value, exec (decodeCommand (encodeOpOf .w32) value) s = _ :=
      fun value => exec_encodeOpOf_ready s x .w32 value hx hready
    refine (hexec v).trans (Eq.trans ?_ (hexec v').symm)
    rw [Encoder.start, Encoder.start, operand_w32_congr hv]

theorem getElem?_withInstance {s : State} {k : Nat} {x : Instance} (y : Instance) (hx : s.instances[k]? = some x) :
    (s.withInstance k y).instances[k]? = some y := by
  simp only [State.withInstance, getElem?_set_instance _ _ _ _ _ hx, if_true]

/-- The step in which the host withdraws a command. -/
theorem step_withdraw (s : State) (k : Nat) (x : Instance) (u : UnitName) (rest : List Move)
    (hx : s.instances[k]? = some x) (henv : s.env = .withdraw k u :: rest) :
    step s = .next (s.after rest k (x.withdraw u)) := by
  rw [step_cons s _ rest henv]
  exact State.update_eq { s with env := rest } k _ x hx

/-- Settles O10: a BUSY unit's command goes to the slot (`presentDecode_busy`, `presentEncode_busy`), a withdrawal
empties it (`step_withdraw`), and the other unit's start step does not look at it. -/
theorem busyUnitLeavesCommandWithHost : Obligations.BusyUnitLeavesCommandWithHost := by
  unfold Obligations.BusyUnitLeavesCommandWithHost
  intro s x value hx
  refine ⟨?decoder, ?encoder, fun rest => step_withdraw s _ x .decoder rest hx,
    fun rest => step_withdraw s _ x .encoder rest hx⟩
  case decoder =>
    intro hbusy
    have hheld : ∀ w, x.presentDecode w value = { x with heldDec := some ⟨w, value⟩ } :=
      fun w => x.presentDecode_busy w value hbusy
    refine ⟨?_, ?_, ?_⟩
    · rw [exec_of_instance _ s x hx, Instance.present, hheld]; rfl
    · rw [exec_of_instance _ s x hx, Instance.present, hheld]; rfl
    · intro v hready i hi
      obtain ⟨w, rfl⟩ : ∃ w, i = decodeCommand (encodeOpOf w) v := by
        obtain rfl | rfl := hi
        · exact ⟨.w32, (decodeCommand_encodeOp .w32 v).symm⟩
        · exact ⟨.w64, (decodeCommand_encodeOp .w64 v).symm⟩
      exact ⟨_, _, exec_encodeOpOf_ready s x w v hx hready, getElem?_withInstance _ hx, rfl, rfl, rfl, rfl⟩
  case encoder =>
    intro hbusy
    have hheld : ∀ w, x.presentEncode w value = { x with heldEnc := some ⟨w, value⟩ } :=
      fun w => x.presentEncode_busy w value hbusy
    refine ⟨?_, ?_, ?_⟩
    · rw [exec_of_instance _ s x hx, Instance.present, hheld]; rfl
    · rw [exec_of_instance _ s x hx, Instance.present, hheld]; rfl
    · intro v hready i hi
      obtain ⟨w, rfl⟩ : ∃ w, i = decodeCommand (decodeOp w) v := by
        obtain rfl | rfl := hi
        · exact ⟨.w32, (decodeCommand_decodeOp .w32 v).symm⟩
        · exact ⟨.w64, (decodeCommand_decodeOp .w64 v).symm⟩
      exact ⟨_, _, exec_decodeOp_ready s x w v hx hready, getElem?_withInstance _ hx, rfl, rfl, rfl, rfl⟩

end Sys2Proof.Machine
end

section
/-! Proofs of the statements on silences and on answers nobody asked for (20_memory.md R27, R30, R35; 10_state.md R20,
R22). -/

namespace Sys2Proof.Machine

/-! ### A silent step -/

/-- A step in which nothing comes from outside, whether a silence is listed or nothing is. -/
theorem step_of_silence (s : State) (h : s.nextMove = .wait) :
    step s = .next ({ s with env := s.env.tail } : State).wait := by
  rw [step_eq, ← State.nextMove, h]
  rfl

theorem getElem?_wait (s : State) (k : Nat) (x : Instance) (hx : s.instances[k]? = some x) :
    s.wait.instances[k]? = some x.wait := by
  rw [State.wait_instances, List.getElem?_map, hx]
  rfl

/-- Neither unit's waiting reads what the other's writes, so it may come first (R37). -/
theorem Instance.wait_eq_waitDecoder_waitEncoder (x : Instance) : x.wait = x.waitEncoder.waitDecoder :=
  (DecoderSide.comm decoderSide_waitDecoder encoderSide_waitEncoder x).symm

/-- The command a ready decoder accepts in a silence is no longer held. -/
theorem Instance.wait_heldDec_of_ready (x : Instance) (c : Held) (hheld : x.heldDec = some c)
    (hready : x.dec.state ≠ .busy) : x.wait.heldDec = none := by
  obtain ⟨-, -, hframe⟩ := encoderSide_waitEncoder.frame x.waitDecoder
  have hr : x.dec.state.ready = true := (UnitState.ready_iff _).mpr hready
  rw [Instance.wait, hframe, Instance.waitDecoder, hr, hheld]
  simp only [x.presentDecode_ready _ _ hready]

/-- The command a ready encoder accepts in a silence is no longer held. -/
theorem Instance.wait_heldEnc_of_ready (x : Instance) (c : Held) (hheld : x.heldEnc = some c)
    (hready : x.enc.state ≠ .busy) : x.wait.heldEnc = none := by
  obtain ⟨-, -, hframe⟩ := decoderSide_waitDecoder.frame x.waitEncoder
  have hr : x.enc.state.ready = true := (UnitState.ready_iff _).mpr hready
  rw [x.wait_eq_waitDecoder_waitEncoder, hframe, Instance.waitEncoder, hr, hheld]
  simp only [x.presentEncode_ready _ _ hready]

/-- Settles O11: in a silence each unit of every instance waits (`step_of_silence`), and a ready unit with a command
held for it takes its start step (`Instance.wait_dec`, `Instance.wait_enc`). -/
theorem heldCommandStartsWhenReady : Obligations.HeldCommandStartsWhenReady := by
  unfold Obligations.HeldCommandStartsWhenReady
  intro s k x hx henv
  have hmove : s.nextMove = .wait := by
    obtain henv | ⟨rest, henv⟩ := henv <;> rw [State.nextMove, henv] <;> rfl
  have hy := getElem?_wait { s with env := s.env.tail } k x hx
  constructor
  · intro c hheld hready
    refine ⟨_, x.wait, step_of_silence s hmove, hy, x.wait_heldDec_of_ready c hheld hready, x.wait_src, ?_⟩
    rw [Instance.wait_dec, hheld]
    exact if_neg hready
  · intro c hheld hready
    refine ⟨_, x.wait, step_of_silence s hmove, hy, x.wait_heldEnc_of_ready c hheld hready, x.wait_sink, ?_⟩
    rw [Instance.wait_enc, hheld]
    exact if_neg hready

/-! ### Silences without end -/

/-- A silent outside world makes every instance wait, step after step. -/
theorem run_silent (n : Nat) (s : State) (k : Nat) (x : Instance) (hx : s.instances[k]? = some x) (henv : s.env = []) :
    ∃ t, run n s = .next t ∧ t.instances[k]? = some (Instance.wait^[n] x) := by
  induction n generalizing s x with
  | zero => exact ⟨s, rfl, hx⟩
  | succ n ih =>
    have hstep := step_of_silence s (by rw [State.nextMove, henv]; rfl)
    rw [run_succ _ _ _ hstep]
    exact ih _ x.wait (getElem?_wait _ k x hx) (by rw [State.wait_env, henv]; rfl)

/-- A BUSY decoder's request shows from the first silence on. -/
theorem Instance.iterate_wait_dec (x : Instance) (n : Nat) (hbusy : x.dec.state = .busy) :
    (Instance.wait^[n] x).src = x.src ∧
    (Instance.wait^[n] x).dec = { x.dec with pending := x.dec.pending || decide (0 < n) } := by
  induction n with
  | zero => simp
  | succ n ih =>
    obtain ⟨hsrc, hdec⟩ := ih
    rw [Function.iterate_succ_apply', Instance.wait_src, Instance.wait_dec_busy _ (by rw [hdec]; exact hbusy), hdec]
    exact ⟨hsrc, by simp⟩

/-- A BUSY encoder's byte is on offer from the first silence on, and stays the same byte. -/
theorem Instance.iterate_wait_enc (x : Instance) (n : Nat) (hbusy : x.enc.state = .busy) :
    (Instance.wait^[n] x).sink = x.sink ∧
    (Instance.wait^[n] x).enc = { x.enc with pending := if n = 0 then x.enc.pending else some x.enc.offered } := by
  induction n with
  | zero => simp
  | succ n ih =>
    obtain ⟨hsink, henc⟩ := ih
    have hoffered : (Instance.wait^[n] x).enc.offered = x.enc.offered := by
      rw [henc]
      cases n <;> rfl
    rw [Function.iterate_succ_apply', Instance.wait_sink, Instance.wait_enc_busy _ (by rw [henc]; exact hbusy),
      hoffered, henc]
    exact ⟨hsink, rfl⟩

/-- Settles O19: the run is `n` waits of the instance (`run_silent`). -/
theorem unansweredRequestHolds : Obligations.UnansweredRequestHolds := by
  unfold Obligations.UnansweredRequestHolds
  intro n s k x hx henv
  obtain ⟨t, hrun, hy⟩ := run_silent n s k x hx henv
  exact ⟨fun hbusy => ⟨t, _, hrun, hy, x.iterate_wait_dec n hbusy⟩,
    fun hbusy => ⟨t, _, hrun, hy, x.iterate_wait_enc n hbusy⟩⟩

/-! ### Answers -/

/-- Replacing an instance by itself changes nothing. -/
theorem State.after_self (s : State) (rest : List Move) (k : Nat) (x : Instance) (hx : s.instances[k]? = some x) :
    s.after rest k x = { s with env := rest } := by
  obtain ⟨hk, rfl⟩ := List.getElem?_eq_some_iff.mp hx
  rw [State.after, List.set_getElem_self]

/-- Settles O18: the answer leaves the instance as it is (`Instance.srcAnswer_ready`, `Instance.sinkAnswer_ready`). -/
theorem answerWithoutRequestIgnored : Obligations.AnswerWithoutRequestIgnored := by
  unfold Obligations.AnswerWithoutRequestIgnored
  intro s k x rest hx
  constructor
  · intro r hready henv
    rw [step_srcAnswer s k x r rest hx henv, x.srcAnswer_ready r hready, s.after_self rest k x hx]
  · intro a hready henv
    rw [step_sinkAnswer s k x a rest hx henv, x.sinkAnswer_ready a hready, s.after_self rest k x hx]

/-- Settles O15: a delivery from a source with no byte left is a `Fail` (`srcRead`). -/
theorem emptySourceFails : Obligations.EmptySourceFails := by
  unfold Obligations.EmptySourceFails
  intro s k x rest hx hbusy hsrc henv
  rw [step_srcAnswer s k x .deliver rest hx henv, Instance.srcAnswer, if_pos hbusy, hsrc]
  simp only [srcRead, Decoder.take_fail, ← hsrc]

end Sys2Proof.Machine
end

section
/-! Proofs of the statements on what any step can do to a unit and its streams (10_state.md R11; 20_memory.md R26,
R34, R35; 70_reset_and_hazards.md R87). -/

namespace Sys2Proof.Machine

/-- A decode step of a BUSY decoder goes on or completes, and an error leaves no RESULT (R15). -/
theorem Decoder.take_state_result (d : Decoder) (a : SrcAnswer) (hbusy : d.state = .busy) :
    (d.take a).state = .busy ∨
      ((d.take a).state = .complete ∧ ((d.take a).status ≠ .ok → (d.take a).result = none)) := by
  cases a with
  | fail => right; simp [d.take_fail]
  | byte b =>
    rw [Decoder.take]
    cases hb : b.getLsbD 7 with
    | false => right; simp [d.takeByte_final b hb]
    | true =>
      cases hfull : offsetFull d.w (d.offset + 7#7) with
      | true => right; simp [d.takeByte_of_full b hb hfull]
      | false => left; rw [d.takeByte_of_not_full b hb hfull]; exact hbusy

/-- Settles O39: a move does one of four things to each unit (`Move.effect_dec`, `Move.effect_enc`), of which only the
start step and the step on an answer of its stream move STATE. -/
theorem stateTransitions : Obligations.StateTransitions := by
  unfold Obligations.StateTransitions
  intro s t k x y hstep hreset hx hy
  obtain rfl := step_instance hstep hx hy
  constructor
  · obtain h | ⟨-, h⟩ | ⟨hready, hoffers, w, h⟩ | ⟨hbusy, hanswer, a, h⟩ :=
      Move.effect_dec s.nextMove s.draws k x hreset <;> rw [h]
    · exact .inl rfl
    · exact .inl rfl
    · exact .inr (.inl ⟨hready, rfl, hoffers⟩)
    · obtain hstate | ⟨hstate, hresult⟩ := x.dec.take_state_result a hbusy
      · exact .inl (hstate.trans hbusy.symm)
      · exact .inr (.inr ⟨hbusy, hstate, hresult, hanswer⟩)
  · obtain h | ⟨-, h⟩ | ⟨hready, hoffers, w, v, h⟩ | ⟨hbusy, hanswer, a, h⟩ :=
      Move.effect_enc s.nextMove s.draws k x hreset <;> rw [h]
    · exact .inl rfl
    · exact .inl rfl
    · exact .inr (.inl ⟨hready, rfl, hoffers⟩)
    · obtain ⟨hstate, -⟩ | ⟨hstate, -⟩ := x.enc.take_state_status a
      · exact .inl hstate
      · exact .inr (.inr ⟨hbusy, hstate, hanswer⟩)

/-- Settles O41: of the four things a move can do to a unit (`Move.effect_dec`, `Move.effect_enc`), all but the start
step leave a unit in COMPLETE as it is. -/
theorem resultLifetime : Obligations.ResultLifetime := by
  unfold Obligations.ResultLifetime
  intro s t k x y hstep hreset hx hy
  obtain rfl := step_instance hstep hx hy
  constructor
  · intro hcomplete
    have hready : x.dec.state ≠ .busy := by rw [hcomplete]; decide
    obtain h | ⟨hbusy, -⟩ | ⟨-, hoffers, w, h⟩ | ⟨hbusy, -⟩ := Move.effect_dec s.nextMove s.draws k x hreset
    · exact .inl h
    · exact absurd hbusy hready
    · exact .inr (by rw [h]; exact ⟨rfl, rfl, hoffers⟩)
    · exact absurd hbusy hready
  · intro hcomplete
    have hready : x.enc.state ≠ .busy := by rw [hcomplete]; decide
    obtain h | ⟨hbusy, -⟩ | ⟨-, hoffers, w, v, h⟩ | ⟨hbusy, -⟩ := Move.effect_enc s.nextMove s.draws k x hreset
    · exact .inl h
    · exact absurd hbusy hready
    · exact .inr (by rw [h]; exact ⟨rfl, hoffers⟩)
    · exact absurd hbusy hready

/-! ### The streams -/

@[simp] theorem Instance.withdraw_src (x : Instance) (u : UnitName) : (x.withdraw u).src = x.src := by
  cases u <;> rfl

@[simp] theorem Instance.withdraw_sink (x : Instance) (u : UnitName) : (x.withdraw u).sink = x.sink := by
  cases u <;> rfl

@[simp] theorem Instance.present_src (x : Instance) (i : Instr) : (x.present i).src = x.src := by
  obtain ⟨hsrc, -⟩ := x.present_frame i
  exact hsrc

@[simp] theorem Instance.present_sink (x : Instance) (i : Instr) : (x.present i).sink = x.sink := by
  obtain ⟨-, hsink, -⟩ := x.present_frame i
  exact hsink

@[simp] theorem Instance.sinkAnswer_src (x : Instance) (a : SinkAnswer) : (x.sinkAnswer a).src = x.src := by
  obtain ⟨-, hsrc, -⟩ := (encoderSide_sinkAnswer a).frame x
  exact hsrc

@[simp] theorem Instance.srcAnswer_sink (x : Instance) (r : SrcReply) : (x.srcAnswer r).sink = x.sink := by
  obtain ⟨-, hsink, -⟩ := (decoderSide_srcAnswer r).frame x
  exact hsink

/-- An answer of the source takes the head or nothing, and only for a BUSY decoder. -/
theorem Instance.srcAnswer_src (x : Instance) (r : SrcReply) :
    (x.srcAnswer r).src = x.src ∨ (x.dec.state = .busy ∧ ∃ b, x.src = b :: (x.srcAnswer r).src) := by
  by_cases hbusy : x.dec.state = .busy
  · rw [Instance.srcAnswer, if_pos hbusy]
    cases r with
    | fail => exact .inl rfl
    | deliver =>
      cases hsrc : x.src with
      | nil => exact .inl rfl
      | cons b bytes => exact .inr ⟨hbusy, b, rfl⟩
  · exact .inl (by rw [x.srcAnswer_ready r hbusy])

/-- An answer of the sink appends one byte or nothing, and only for a BUSY encoder. -/
theorem Instance.sinkAnswer_sink (x : Instance) (a : SinkAnswer) :
    (x.sinkAnswer a).sink = x.sink ∨ (x.enc.state = .busy ∧ ∃ b, (x.sinkAnswer a).sink = x.sink ++ [b]) := by
  by_cases hbusy : x.enc.state = .busy
  · cases a with
    | fail => exact .inl (by rw [x.sinkAnswer_fail hbusy])
    | ok => exact .inr ⟨hbusy, x.enc.offered, by rw [x.sinkAnswer_ok hbusy]⟩
  · exact .inl (by rw [x.sinkAnswer_ready a hbusy])

/-- Of the moves that are no change of a source by the outside world, only an answer of the source moves a byte of it.
-/
theorem Move.effect_src (m : Move) (n j : Nat) (x : Instance) (hreset : m.isReset = false)
    (houtside : ∀ k bytes, m ≠ .feedSrc k bytes ∧ m ≠ .connectSrc k bytes) :
    (m.effect n j x).src = x.src ∨ (x.dec.state = .busy ∧ ∃ b, x.src = b :: (m.effect n j x).src) := by
  cases m with
  | wait => exact .inl x.wait_src
  | command k op value => left; simp only [Move.effect]; split <;> simp
  | withdraw k u => left; simp only [Move.effect]; split <;> simp
  | sinkAnswer k a => left; simp only [Move.effect]; split <;> simp
  | srcAnswer k r =>
    simp only [Move.effect]
    split
    · exact x.srcAnswer_src r
    · exact .inl rfl
  | feedSrc k bytes => exact absurd rfl (houtside k bytes).1
  | connectSrc k bytes => exact absurd rfl (houtside k bytes).2
  | connectSink k bytes => left; simp only [Move.effect]; split <;> rfl
  | read k r => exact .inl rfl
  | reset choices => cases hreset

/-- Of the moves that are no change of a sink by the outside world, only an answer of the sink moves a byte to it. -/
theorem Move.effect_sink (m : Move) (n j : Nat) (x : Instance) (hreset : m.isReset = false)
    (houtside : ∀ k bytes, m ≠ .connectSink k bytes) :
    (m.effect n j x).sink = x.sink ∨ (x.enc.state = .busy ∧ ∃ b, (m.effect n j x).sink = x.sink ++ [b]) := by
  cases m with
  | wait => exact .inl x.wait_sink
  | command k op value => left; simp only [Move.effect]; split <;> simp
  | withdraw k u => left; simp only [Move.effect]; split <;> simp
  | srcAnswer k r => left; simp only [Move.effect]; split <;> simp
  | sinkAnswer k a =>
    simp only [Move.effect]
    split
    · exact x.sinkAnswer_sink a
    · exact .inl rfl
  | feedSrc k bytes => left; simp only [Move.effect]; split <;> rfl
  | connectSrc k bytes => left; simp only [Move.effect]; split <;> rfl
  | connectSink k bytes => exact absurd rfl (houtside k bytes)
  | read k r => exact .inl rfl
  | reset choices => cases hreset

/-- Settles O42: the one move of the step moves a byte only as an answer of the stream (`Move.effect_src`,
`Move.effect_sink`). -/
theorem oneByteAStep : Obligations.OneByteAStep := by
  unfold Obligations.OneByteAStep
  intro s t k x y hstep hreset houtside hx hy
  obtain rfl := step_instance hstep hx hy
  constructor
  · apply Move.effect_src _ _ _ _ hreset
    intro j bytes
    obtain ⟨hfeed, hconnect, -⟩ := houtside j bytes
    exact ⟨hfeed, hconnect⟩
  · apply Move.effect_sink _ _ _ _ hreset
    intro j bytes
    obtain ⟨-, -, hconnect⟩ := houtside j bytes
    exact hconnect

end Sys2Proof.Machine
end

section
/-! Proofs of the statements on host reads and on where the machine stops (10_state.md R13, R24; 20_memory.md R38;
60_exceptions.md R79). -/

namespace Sys2Proof.Machine

/-! ### A host read -/

theorem State.hostRead_ok (s : State) (k : Nat) (r : HostReg) (x : Instance) (v : Word) (hx : s.instances[k]? = some x)
    (hv : x.hostRead r = .ok v) :
    s.hostRead k r = .next { s with reads := s.reads ++ [{ port := k, reg := r, value := v }] } := by
  simp [State.hostRead, hx, hv]

theorem State.hostRead_error (s : State) (k : Nat) (r : HostReg) (x : Instance) (e : Fault)
    (hx : s.instances[k]? = some x) (he : x.hostRead r = .error e) : s.hostRead k r = .fault e := by
  simp [State.hostRead, hx, he]

theorem step_read_ok (s : State) (k : Nat) (r : HostReg) (x : Instance) (v : Word) (rest : List Move)
    (hx : s.instances[k]? = some x) (henv : s.env = .read k r :: rest) (hv : x.hostRead r = .ok v) :
    step s = .next { s with env := rest, reads := s.reads ++ [{ port := k, reg := r, value := v }] } := by
  rw [step_cons s _ rest henv]
  exact State.hostRead_ok { s with env := rest } k r x v hx hv

theorem step_read_error (s : State) (k : Nat) (r : HostReg) (x : Instance) (e : Fault) (rest : List Move)
    (hx : s.instances[k]? = some x) (henv : s.env = .read k r :: rest) (he : x.hostRead r = .error e) :
    step s = .fault e := by
  rw [step_cons s _ rest henv]
  exact State.hostRead_error { s with env := rest } k r x e hx he

/-- RESULT is given in COMPLETE with OK. -/
theorem Instance.hostRead_decResult_ok (x : Instance) (v : Word) (hstate : x.dec.state = .complete)
    (hstatus : x.dec.status = .ok) (hresult : x.dec.result = some v) : x.hostRead .decResult = .ok v := by
  simp [Instance.hostRead, Decoder.resultValid, hstate, hstatus, hresult]

/-- RESULT is not given where there is none, nor outside COMPLETE with OK. -/
theorem Instance.hostRead_decResult_error (x : Instance)
    (h : x.dec.result = none ∨ ¬(x.dec.state = .complete ∧ x.dec.status = .ok)) :
    x.hostRead .decResult = .error .resultNotValid := by
  obtain hnone | hnot := h
  · cases hvalid : x.dec.resultValid <;> simp [Instance.hostRead, hvalid, hnone]
  · simp [Instance.hostRead, Decoder.resultValid, hnot]

/-- Settles O43: each register's read is a case of `Instance.hostRead`, which the step keeps in `reads`
(`step_read_ok`) or stops at (`step_read_error`). -/
theorem hostReads : Obligations.HostReads := by
  unfold Obligations.HostReads
  intro s k x rest hx
  refine ⟨?decState, ?encState, ?decStatus, ?encStatus, ?decResult⟩
  case decState => exact fun henv => step_read_ok s k _ x _ rest hx henv rfl
  case encState => exact fun henv => step_read_ok s k _ x _ rest hx henv rfl
  case decStatus =>
    intro henv
    split
    · exact step_read_ok s k _ x _ rest hx henv (if_pos ‹_›)
    · exact step_read_error s k _ x _ rest hx henv (if_neg ‹_›)
  case encStatus =>
    intro henv
    split
    · exact step_read_ok s k _ x _ rest hx henv (if_pos ‹_›)
    · exact step_read_error s k _ x _ rest hx henv (if_neg ‹_›)
  case decResult =>
    intro henv
    exact ⟨fun h => step_read_error s k _ x _ rest hx henv (x.hostRead_decResult_error (.inr h)),
      fun v hstate hstatus hresult =>
        step_read_ok s k _ x _ rest hx henv (x.hostRead_decResult_ok v hstate hstatus hresult)⟩

/-- A host read that is not valid, by its register (R24). -/
theorem Instance.hostRead_error_cases (x : Instance) (r : HostReg) (e : Fault) (h : x.hostRead r = .error e) :
    (e = .statusNotValid ∧ r = .decStatus ∧ x.dec.state ≠ .complete) ∨
    (e = .statusNotValid ∧ r = .encStatus ∧ x.enc.state ≠ .complete) ∨
    (e = .resultNotValid ∧ r = .decResult ∧
      (x.dec.result = none ∨ ¬(x.dec.state = .complete ∧ x.dec.status = .ok))) := by
  cases r with
  | decState => cases h
  | encState => cases h
  | decStatus =>
    by_cases hstate : x.dec.state = .complete
    · rw [Instance.hostRead, if_pos hstate] at h
      cases h
    · rw [Instance.hostRead, if_neg hstate] at h
      cases h
      exact .inl ⟨rfl, rfl, hstate⟩
  | encStatus =>
    by_cases hstate : x.enc.state = .complete
    · rw [Instance.hostRead, if_pos hstate] at h
      cases h
    · rw [Instance.hostRead, if_neg hstate] at h
      cases h
      exact .inr (.inl ⟨rfl, rfl, hstate⟩)
  | decResult =>
    by_cases hinvalid : x.dec.result = none ∨ ¬(x.dec.state = .complete ∧ x.dec.status = .ok)
    · rw [x.hostRead_decResult_error hinvalid] at h
      cases h
      exact .inr (.inr ⟨rfl, rfl, hinvalid⟩)
    · obtain ⟨hsome, hvalid⟩ := not_or.mp hinvalid
      obtain ⟨hstate, hstatus⟩ := not_not.mp hvalid
      obtain ⟨v, hresult⟩ := Option.ne_none_iff_exists'.mp hsome
      rw [x.hostRead_decResult_ok v hstate hstatus hresult] at h
      cases h

/-! ### Where the machine stops -/

/-- A move for an instance that is not there. -/
theorem perform_of_no_instance (m : Move) (s : State) (k : Nat) (hport : m.port = some k)
    (hnone : s.instances[k]? = none) : perform m s = .fault .noSuchInstance := by
  cases m with
  | wait => cases hport
  | reset choices => cases hport
  | command k op value =>
    cases hport
    rw [perform, exec_eq_update]
    exact State.update_fault { s with sel := k } k _ hnone
  | withdraw k u => cases hport; exact State.update_fault s k _ hnone
  | srcAnswer k r => cases hport; exact State.update_fault s k _ hnone
  | sinkAnswer k a => cases hport; exact State.update_fault s k _ hnone
  | feedSrc k bytes => cases hport; exact State.update_fault s k _ hnone
  | connectSrc k bytes => cases hport; simp [perform, State.connect, hnone]
  | connectSink k bytes => cases hport; simp [perform, State.connect, hnone]
  | read k r => cases hport; simp [perform, State.hostRead, hnone]

/-- What `connect` answers where the instance is there. -/
theorem State.connect_eq (s : State) (k : Nat) (unitState : Instance → UnitState) (f : Instance → Instance)
    (x : Instance) (hx : s.instances[k]? = some x) : s.connect k unitState f =
      if unitState x = .busy then .refused .streamInterference
      else .next { s with instances := s.instances.set k (f x) } := by
  by_cases hbusy : unitState x = .busy <;> simp [State.connect, hx, hbusy, State.update_eq s k f x hx]

/-- What a move of the outside world can end in where the instance it names is there: a next state, a host read that
is not valid, or another agent's change of a stream in use. -/
theorem perform_cases (m : Move) (s : State) (hport : ∀ k, m.port = some k → ∃ x, s.instances[k]? = some x) :
    (∃ t, perform m s = .next t) ∨
    (∃ k r x e, m = .read k r ∧ s.instances[k]? = some x ∧ x.hostRead r = .error e ∧ perform m s = .fault e) ∨
    (perform m s = .refused .streamInterference ∧ ∃ k x bytes, s.instances[k]? = some x ∧
      ((m = .connectSrc k bytes ∧ x.dec.state = .busy) ∨ (m = .connectSink k bytes ∧ x.enc.state = .busy))) := by
  have updates : ∀ k f, m.port = some k → perform m s = s.update k f → ∃ t, perform m s = .next t := by
    intro k f hk hm
    obtain ⟨x, hx⟩ := hport k hk
    exact ⟨_, hm.trans (State.update_eq s k f x hx)⟩
  cases m with
  | wait => exact .inl ⟨_, rfl⟩
  | reset choices => exact .inl ⟨_, rfl⟩
  | command k op value =>
    obtain ⟨x, hx⟩ := hport k rfl
    exact .inl ⟨_, exec_of_instance _ { s with sel := k } x hx⟩
  | withdraw k u => exact .inl (updates k _ rfl rfl)
  | srcAnswer k r => exact .inl (updates k _ rfl rfl)
  | sinkAnswer k a => exact .inl (updates k _ rfl rfl)
  | feedSrc k bytes => exact .inl (updates k _ rfl rfl)
  | connectSrc k bytes =>
    obtain ⟨x, hx⟩ := hport k rfl
    rw [perform, State.connect_eq s k _ _ x hx]
    by_cases hbusy : x.dec.state = .busy
    · exact .inr (.inr ⟨if_pos hbusy, k, x, bytes, hx, .inl ⟨rfl, hbusy⟩⟩)
    · exact .inl ⟨_, if_neg hbusy⟩
  | connectSink k bytes =>
    obtain ⟨x, hx⟩ := hport k rfl
    rw [perform, State.connect_eq s k _ _ x hx]
    by_cases hbusy : x.enc.state = .busy
    · exact .inr (.inr ⟨if_pos hbusy, k, x, bytes, hx, .inr ⟨rfl, hbusy⟩⟩)
    · exact .inl ⟨_, if_neg hbusy⟩
  | read k r =>
    obtain ⟨x, hx⟩ := hport k rfl
    cases hread : x.hostRead r with
    | ok v => exact .inl ⟨_, s.hostRead_ok k r x v hx hread⟩
    | error e => exact .inr (.inl ⟨k, r, x, e, rfl, hx, hread, s.hostRead_error k r x e hx hread⟩)

/-- A well-formed move names an instance that is there. -/
theorem Move.exists_instance_of_wellFormed {m : Move} {s : State} (h : m.wellFormed s.instances.length = true) (k : Nat)
    (hport : m.port = some k) : ∃ x, s.instances[k]? = some x := by
  simp only [Move.wellFormed, hport, decide_eq_true_eq] at h
  exact ⟨_, List.getElem?_eq_getElem h⟩

/-- An ill-formed move names an instance that is not there. -/
theorem Move.exists_port_of_not_wellFormed {m : Move} {s : State} (h : m.wellFormed s.instances.length = false) :
    ∃ k, m.port = some k ∧ s.instances[k]? = none := by
  cases hport : m.port with
  | none => simp [Move.wellFormed, hport] at h
  | some k =>
    simp only [Move.wellFormed, hport, decide_eq_false_iff_not] at h
    exact ⟨k, rfl, List.getElem?_eq_none (Nat.not_lt.mp h)⟩

/-- Settles O44: an ill-formed move is a fault (`perform_of_no_instance`), and a well-formed one stops only at an
invalid read or at interference (`perform_cases`). -/
theorem stopsOnlyThere : Obligations.StopsOnlyThere := by
  unfold Obligations.StopsOnlyThere
  intro s
  have hstep : step s = perform s.nextMove { s with env := s.env.tail } := step_eq s
  have hill : s.nextMove.wellFormed s.instances.length = false → step s = .fault .noSuchInstance := by
    intro hwf
    obtain ⟨k, hport, hnone⟩ := Move.exists_port_of_not_wellFormed hwf
    exact hstep.trans (perform_of_no_instance _ _ k hport hnone)
  have hwell := fun hport => perform_cases s.nextMove { s with env := s.env.tail } hport
  rw [← hstep] at hwell
  refine ⟨?fault, ?readState, ?refused, hill⟩
  case fault =>
    intro r hr
    cases hwf : s.nextMove.wellFormed s.instances.length with
    | false =>
      rw [hill hwf] at hr
      cases hr
      exact .inl ⟨rfl, rfl⟩
    | true =>
      right
      obtain ⟨t, ht⟩ | ⟨k, reg, x, e, hmove, hx, hread, he⟩ | ⟨hrefused, -⟩ :=
        hwell (Move.exists_instance_of_wellFormed hwf)
      · rw [ht] at hr; cases hr
      · rw [he] at hr
        cases hr
        refine ⟨k, x, hx, ?_⟩
        rw [hmove]
        obtain ⟨hr, rfl, hstate⟩ | ⟨hr, rfl, hstate⟩ | ⟨hr, rfl, hresult⟩ := x.hostRead_error_cases reg _ hread
        · exact .inl ⟨hr, rfl, hstate⟩
        · exact .inr (.inl ⟨hr, rfl, hstate⟩)
        · refine .inr (.inr ⟨hr, rfl, hresult, ?_⟩)
          intro hinv hvalid
          obtain hnone | hnot := hresult
          · have hsome := hinv.result_valid.mpr hvalid
            simp [hnone] at hsome
          · exact hnot hvalid
      · rw [hrefused] at hr; cases hr
  case readState =>
    rintro k x hx (hmove | hmove) <;> rw [hstep, hmove]
    · exact ⟨_, State.hostRead_ok { s with env := s.env.tail } k .decState x _ hx rfl⟩
    · exact ⟨_, State.hostRead_ok { s with env := s.env.tail } k .encState x _ hx rfl⟩
  case refused =>
    intro r hr
    cases hwf : s.nextMove.wellFormed s.instances.length with
    | false =>
      rw [hill hwf] at hr
      cases hr
    | true =>
      obtain ⟨t, ht⟩ | ⟨k, reg, x, e, -, -, -, he⟩ | ⟨hrefused, hwhere⟩ :=
        hwell (Move.exists_instance_of_wellFormed hwf)
      · rw [ht] at hr; cases hr
      · rw [he] at hr; cases hr
      · rw [hrefused] at hr
        cases hr
        exact ⟨rfl, hwhere⟩

end Sys2Proof.Machine
end

section
/-! Proof of the statement on the lines of an assembler (30_encoding.md R50). -/

namespace Sys2Proof.Machine

theorem assembleLine_enc32 (imm : Imm) : assembleLine (.enc32 imm) =
    if immFits .w32 imm then some (.enc32 (zext 64 (immPattern .w32 imm))) else none := by
  cases hfits : immFits .w32 imm <;> simp [assembleLine, lineWellFormed, hfits]

theorem assembleLine_enc64 (imm : Imm) : assembleLine (.enc64 imm) =
    if immFits .w64 imm then some (.enc64 (zext 64 (immPattern .w64 imm))) else none := by
  cases hfits : immFits .w64 imm <;> simp [assembleLine, lineWellFormed, hfits]

theorem immFits_dec (w : Width) (z : Int) :
    immFits w (.dec z) = true ↔ -(2 ^ (w.bits - 1) : Int) ≤ z ∧ z < 2 ^ (w.bits - 1) :=
  decide_eq_true_iff

theorem immFits_hex (w : Width) (n : Nat) : immFits w (.hex n) = true ↔ n < 2 ^ w.bits :=
  decide_eq_true_iff

/-- A decimal in range is the signed reading of its pattern (R4). -/
theorem toInt_immPattern_dec (w : Width) (z : Int) (h : immFits w (.dec z) = true) :
    (immPattern w (.dec z)).toInt = z := by
  obtain ⟨hlow, hhigh⟩ := (immFits_dec w z).mp h
  exact BitVec.toInt_ofInt_eq_self (by cases w <;> decide) (by exact_mod_cast hlow) (by exact_mod_cast hhigh)

/-- A pattern in range is the same number in the value port. -/
theorem zext_immPattern_hex (w : Width) (n : Nat) (h : immFits w (.hex n) = true) :
    zext 64 (immPattern w (.hex n)) = BitVec.ofNat 64 n := by
  have hn := (immFits_hex w n).mp h
  have h64 : n < 2 ^ 64 := hn.trans_le (Nat.pow_le_pow_right (by decide) (by cases w <;> decide))
  apply BitVec.eq_of_toNat_eq
  rw [toNat_zext_register, immPattern, BitVec.toNat_ofNat, BitVec.toNat_ofNat, Nat.mod_eq_of_lt hn,
    Nat.mod_eq_of_lt h64]

/-- Settles O49: a line stands for its command exactly when its immediate fits (`assembleLine_enc32`,
`assembleLine_enc64`), which is the range of R50 (`immFits_dec`, `immFits_hex`). -/
theorem assemblerLines : Obligations.AssemblerLines := by
  unfold Obligations.AssemblerLines
  refine ⟨?dec32, ?dec64, ?hex32, ?hex64, ?dec32Out, ?dec64Out, ?hex32Out, ?hex64Out, rfl, rfl⟩
  case dec32 =>
    intro z hlow hhigh
    have hfits : immFits .w32 (.dec z) = true := (immFits_dec .w32 z).mpr ⟨hlow, hhigh⟩
    refine ⟨_, (assembleLine_enc32 _).trans (if_pos hfits), ?_, ?_⟩
    · exact (congrArg BitVec.toInt (zext_zext .w32 _)).trans (toInt_immPattern_dec .w32 z hfits)
    · rw [toNat_zext_register]
      exact (immPattern .w32 (.dec z)).isLt
  case dec64 =>
    intro z hlow hhigh
    have hfits : immFits .w64 (.dec z) = true := (immFits_dec .w64 z).mpr ⟨hlow, hhigh⟩
    refine ⟨_, (assembleLine_enc64 _).trans (if_pos hfits), ?_⟩
    exact (congrArg BitVec.toInt (zext_zext .w64 _)).trans (toInt_immPattern_dec .w64 z hfits)
  case hex32 =>
    intro n hn
    have hfits : immFits .w32 (.hex n) = true := (immFits_hex .w32 n).mpr hn
    rw [assembleLine_enc32, if_pos hfits, zext_immPattern_hex .w32 n hfits]
  case hex64 =>
    intro n hn
    have hfits : immFits .w64 (.hex n) = true := (immFits_hex .w64 n).mpr hn
    rw [assembleLine_enc64, if_pos hfits, zext_immPattern_hex .w64 n hfits]
  case dec32Out =>
    intro z hz
    rw [assembleLine_enc32, if_neg]
    rw [immFits_dec]
    simp only [Width.bits]
    omega
  case dec64Out =>
    intro z hz
    rw [assembleLine_enc64, if_neg]
    rw [immFits_dec]
    simp only [Width.bits]
    omega
  case hex32Out =>
    intro n hn
    rw [assembleLine_enc32, if_neg]
    rw [immFits_hex]
    exact Nat.not_lt.mpr hn
  case hex64Out =>
    intro n hn
    rw [assembleLine_enc64, if_neg]
    rw [immFits_hex]
    exact Nat.not_lt.mpr hn

end Sys2Proof.Machine
end
